-- ==== Sys2Proof/Word.lean ====
section
/-! DEFINITION. The atom, the only data type of the Intcode core (spec/00_scope.md R7, R11). -/

namespace Sys2Proof

/-- An atom: 64 bits, two's complement, signed (R7, D1). `BitVec.toInt` is the mathematical integer of R11 that the
rules compute with; no operation of the ISA wraps, slices or extends one (R11, R100). -/
abbrev Atom := BitVec 64

/-- `inAtom(v)` of R11: the exact integer `v` lies in the atom range of R7. -/
abbrev InAtom (v : Int) : Prop := -9223372036854775808 ≤ v ∧ v ≤ 9223372036854775807

/-- The atom that represents an exact integer, where one does. -/
def Atom.ofInt? (v : Int) : Option Atom :=
  if InAtom v then some (BitVec.ofInt 64 v) else none

end Sys2Proof
end

