-- ==== Sys2Proof/Vocabulary.lean ====
section
/-! DEFINITION. The closed sets of names the spec uses before it has an instruction: parameter modes, opcodes, the rows
of the opcode map, and the error taxonomy. -/

namespace Sys2Proof

/-- The three parameter modes (spec/30_encoding.md R65; spec/20_memory.md R51). -/
inductive Mode where
  | position
  | immediate
  | relative
  deriving DecidableEq, Repr

/-- One parameter of an instruction: the raw parameter word, a full atom taken as it stands (spec/30_encoding.md R69),
and the mode its digit selects. The pair `(p, m)` of spec/20_memory.md R48 and R49. -/
structure Param where
  mode : Mode
  raw : Atom
  deriving DecidableEq, Repr

/-- The ten opcodes (spec/00_scope.md R2), in the order of spec/30_encoding.md R62. -/
inductive Opcode where
  | add
  | multiply
  | input
  | output
  | jumpIfTrue
  | jumpIfFalse
  | lessThan
  | equals
  | adjustRelativeBase
  | halt
  deriving DecidableEq, Repr

/-- A row of the opcode map (spec/30_encoding.md R62). `writeParam` is the number, from 1, of the parameter that the
instruction resolves as an address. -/
structure OpcodeRow where
  digits : Nat
  opcode : Opcode
  arity : Nat
  writeParam : Option Nat
  deriving DecidableEq, Repr

/-- The access kind of `OutOfBoundsAddress` (spec/20_memory.md R42): `read` for a fetch or an operand read, `write` for a
result write. -/
inductive AccessKind where
  | read
  | write
  deriving DecidableEq, Repr

/-- The error kinds with their fields (spec/60_exceptions.md R180). All are terminal. -/
inductive ErrorKind where
  /-- R181: a resolved address was negative. -/
  | outOfBoundsAddress (addr : Atom) (kind : AccessKind)
  /-- R182: a mode digit outside 0, 1, 2, or an Immediate write parameter. -/
  | badParameterMode (rawDigit : Fin 10)
  /-- R183: the opcode digits match no opcode, or the word is negative. -/
  | unknownOpcode (rawWord : Atom)
  /-- R184: nonzero digits beyond the opcode's arity. -/
  | malformedInstruction (rawWord : Atom)
  /-- R185: a computed atom left the 64-bit range. -/
  | arithmeticOverflow (rawWord : Atom)
  /-- R186: an access at or beyond `MEM_LIMIT`. -/
  | memoryLimitExceeded (addr : Atom)
  deriving DecidableEq, Repr

end Sys2Proof
end

