-- ==== Sys2Proof/Syntax.lean ====
section
/-! DEFINITION. The instructions: one constructor per row of spec/opcode_table.json (spec/30_encoding.md R62), with the
parameters in parameter order. The pseudo-instructions `jmp`, `mov` and `nop` (R82) are not constructors: they are other
names of words of these (Decode.lean). -/

namespace Sys2Proof

/-- An instruction: an opcode and as many parameters as its arity (spec/30_encoding.md R60). It is never held in state:
it is "decoded transiently each step" (spec/10_state.md R34). -/
inductive Instr where
  /-- `add A, B, C`: spec/41_arithmetic.md R120. -/
  | add (a b c : Param)
  /-- `mul A, B, C`: spec/41_arithmetic.md R121. -/
  | mul (a b c : Param)
  /-- `in C`: spec/42_io.md R130. -/
  | input (c : Param)
  /-- `out A`: spec/42_io.md R131. -/
  | output (a : Param)
  /-- `jt A, T`: spec/43_jumps.md R150. -/
  | jumpIfTrue (a t : Param)
  /-- `jf A, T`: spec/43_jumps.md R151. -/
  | jumpIfFalse (a t : Param)
  /-- `lt A, B, C`: spec/44_compare.md R160. -/
  | lessThan (a b c : Param)
  /-- `eq A, B, C`: spec/44_compare.md R161. -/
  | equals (a b c : Param)
  /-- `arb A`: spec/45_relbase_halt.md R170. -/
  | adjustRelativeBase (a : Param)
  /-- `hlt`: spec/45_relbase_halt.md R171. -/
  | halt
  deriving DecidableEq, Repr

end Sys2Proof
end

