-- ==== Sys2Proof/WellFormed.lean ====
section
/-! DEFINITION. Which terms of `Instr` are instructions of the ISA (spec/30_encoding.md R67).

The arity of each opcode and the width of each parameter are fixed by the types. The one check left is the mode of the
write parameter. -/

namespace Sys2Proof

/-- A write parameter is in Position or Relative mode, never Immediate (R67). -/
def Param.writable (p : Param) : Bool := p.mode != .immediate

/-- The modes an opcode admits (R73): the write parameters are parameter 3 of Add, Multiply, LessThan and Equals, and
parameter 1 of Input; every other parameter admits all three modes. -/
def Instr.wellFormed : Instr → Bool
  | .add _ _ c => c.writable
  | .mul _ _ c => c.writable
  | .input c => c.writable
  | .output _ => true
  | .jumpIfTrue _ _ => true
  | .jumpIfFalse _ _ => true
  | .lessThan _ _ c => c.writable
  | .equals _ _ c => c.writable
  | .adjustRelativeBase _ => true
  | .halt => true

end Sys2Proof
end

