-- ==== Sys2Proof/Decode.lean ====
section
/-! DEFINITION. The decoder and, after it, the encoder (spec/30_encoding.md). The instruction word is a DECIMAL packing
(R61): the fields are decimal digits of a non-negative atom, never bits. -/

namespace Sys2Proof

/-- `digit_k(w)` of spec/00_scope.md R11: the decimal digit of weight `10^k`. -/
def digit (k n : Nat) : Fin 10 := Fin.ofNat 10 (n / 10 ^ k)

/-- The opcode map (R62), as a table of rows. The numbers 5 to 8 are the spec's own choice (D22, R74). -/
def opcodeMap : List OpcodeRow :=
  [ ⟨1, .add, 3, some 3⟩,
    ⟨2, .multiply, 3, some 3⟩,
    ⟨3, .input, 1, some 1⟩,
    ⟨4, .output, 1, none⟩,
    ⟨5, .jumpIfTrue, 2, none⟩,
    ⟨6, .jumpIfFalse, 2, none⟩,
    ⟨7, .lessThan, 3, some 3⟩,
    ⟨8, .equals, 3, some 3⟩,
    ⟨9, .adjustRelativeBase, 1, none⟩,
    ⟨99, .halt, 0, none⟩ ]

/-- The row of the opcode map for two opcode digits, where there is one (R62, R71). -/
def rowOfDigits? (d : Nat) : Option OpcodeRow := opcodeMap.find? (fun r => r.digits == d)

/-- The mode a mode digit selects; any digit 3 .. 9 is `BadParameterMode` (R65). -/
def modeOfDigit (g : Fin 10) : Except ErrorKind Mode :=
  match g with
  | 0 => .ok .position
  | 1 => .ok .immediate
  | 2 => .ok .relative
  | _ => .error (.badParameterMode g)

/-- A decoded instruction word: the opcode's row and the modes of the three mode places. The places beyond the arity
decode to Position, since a nonzero digit there is an error (R66, R68). -/
structure Header where
  row : OpcodeRow
  m1 : Mode
  m2 : Mode
  m3 : Mode
  deriving DecidableEq, Repr

/-- The mode of parameter `k`, counted from 1. -/
def Header.modeOf (h : Header) (k : Nat) : Mode :=
  match k with
  | 1 => h.m1
  | 2 => h.m2
  | _ => h.m3

/-- Whether the write parameter is in Immediate mode (R67). -/
def Header.writesImmediate (h : Header) : Bool :=
  match h.row.writeParam with
  | none => false
  | some k => h.modeOf k == .immediate

/-- `decode(w)` of R64, with its checks in the order the rule gives: negative word (R63), opcode digits (R71), the mode
digits from parameter 1 to parameter 3 whatever the arity (R65), excess digits (R68), and an Immediate write parameter
(R67). -/
def decodeWord (w : Atom) : Except ErrorKind Header :=
  if w.toInt < 0 then .error (.unknownOpcode w)
  else
    match rowOfDigits? (w.toNat % 100) with
    | none => .error (.unknownOpcode w)
    | some row => do
      let m1 ← modeOfDigit (digit 2 w.toNat)
      let m2 ← modeOfDigit (digit 3 w.toNat)
      let m3 ← modeOfDigit (digit 4 w.toNat)
      let h : Header := ⟨row, m1, m2, m3⟩
      if w.toNat / (100 * 10 ^ row.arity) ≠ 0 then .error (.malformedInstruction w)
      else if h.writesImmediate then .error (.badParameterMode 1)
      else .ok h

/-- The instruction a decoded word and its parameter words make (R60). `ps` holds as many words as the arity. -/
def Header.instr (h : Header) (ps : List Atom) : Instr :=
  let p1 : Param := ⟨h.m1, ps.getD 0 0⟩
  let p2 : Param := ⟨h.m2, ps.getD 1 0⟩
  let p3 : Param := ⟨h.m3, ps.getD 2 0⟩
  match h.row.opcode with
  | .add => .add p1 p2 p3
  | .multiply => .mul p1 p2 p3
  | .input => .input p1
  | .output => .output p1
  | .jumpIfTrue => .jumpIfTrue p1 p2
  | .jumpIfFalse => .jumpIfFalse p1 p2
  | .lessThan => .lessThan p1 p2 p3
  | .equals => .equals p1 p2 p3
  | .adjustRelativeBase => .adjustRelativeBase p1
  | .halt => .halt

/-- Why a list of atoms is no instruction: an error of the decoder, or fewer atoms than the instruction's length. On the
machine the second never happens: the tape reads 0 past its end (spec/40_execution_cycle.md R95). -/
inductive DecodeError where
  | raised (kind : ErrorKind)
  | truncated
  deriving DecidableEq, Repr

/-- The instruction at the head of a list of atoms, and the atoms after it (R60, R70). Total on every list. -/
def decode : List Atom → Except DecodeError (Instr × List Atom)
  | [] => .error .truncated
  | w :: rest =>
    match decodeWord w with
    | .error k => .error (.raised k)
    | .ok h =>
      if rest.length < h.row.arity then .error .truncated
      else .ok (h.instr (rest.take h.row.arity), rest.drop h.row.arity)

/-! ### The encoder (R61, R81) -/

/-- The opcode digits of each opcode: the first column of R62, read from right to left. -/
def Opcode.digits : Opcode → Nat
  | .add => 1
  | .multiply => 2
  | .input => 3
  | .output => 4
  | .jumpIfTrue => 5
  | .jumpIfFalse => 6
  | .lessThan => 7
  | .equals => 8
  | .adjustRelativeBase => 9
  | .halt => 99

/-- The mode digit of each mode (R65). -/
def Mode.digit : Mode → Nat
  | .position => 0
  | .immediate => 1
  | .relative => 2

/-- The opcode of an instruction (R62). -/
def Instr.opcode : Instr → Opcode
  | .add _ _ _ => .add
  | .mul _ _ _ => .multiply
  | .input _ => .input
  | .output _ => .output
  | .jumpIfTrue _ _ => .jumpIfTrue
  | .jumpIfFalse _ _ => .jumpIfFalse
  | .lessThan _ _ _ => .lessThan
  | .equals _ _ _ => .equals
  | .adjustRelativeBase _ => .adjustRelativeBase
  | .halt => .halt

/-- The parameters of an instruction, in parameter order (R60). -/
def Instr.params : Instr → List Param
  | .add a b c => [a, b, c]
  | .mul a b c => [a, b, c]
  | .input c => [c]
  | .output a => [a]
  | .jumpIfTrue a t => [a, t]
  | .jumpIfFalse a t => [a, t]
  | .lessThan a b c => [a, b, c]
  | .equals a b c => [a, b, c]
  | .adjustRelativeBase a => [a]
  | .halt => []

/-- `length = 1 + arity` (R62, R70). -/
def Instr.length (i : Instr) : Nat := 1 + i.params.length

/-- The word `d + 100*A + 1000*B + 10000*C` of R81, 0 for each absent operand. -/
def packWord (d : Nat) (modes : List Mode) : Nat :=
  d + 100 * ((modes.map Mode.digit).getD 0 0) + 1000 * ((modes.map Mode.digit).getD 1 0)
    + 10000 * ((modes.map Mode.digit).getD 2 0)

/-- The instruction word of an instruction (R81). -/
def encodeWord (i : Instr) : Atom :=
  BitVec.ofNat 64 (packWord i.opcode.digits (i.params.map Param.mode))

/-- The atoms of an instruction: its word, then its parameter words in parameter order (R60, R81). -/
def encode (i : Instr) : List Atom := encodeWord i :: i.params.map Param.raw

/-! ### The set of legal words (R73) -/

/-- The table of R73: opcode digits, and the digits admitted in the places of modes 1, 2 and 3. -/
def legalRows : List (Nat × List Nat × List Nat × List Nat) :=
  [ (1, [0, 1, 2], [0, 1, 2], [0, 2]),
    (2, [0, 1, 2], [0, 1, 2], [0, 2]),
    (3, [0, 2], [0], [0]),
    (4, [0, 1, 2], [0], [0]),
    (5, [0, 1, 2], [0, 1, 2], [0]),
    (6, [0, 1, 2], [0, 1, 2], [0]),
    (7, [0, 1, 2], [0, 1, 2], [0, 2]),
    (8, [0, 1, 2], [0, 1, 2], [0, 2]),
    (9, [0, 1, 2], [0], [0]),
    (99, [0], [0], [0]) ]

/-- The complete set of legal instruction words (R73). -/
def legalWords : List Nat :=
  legalRows.flatMap fun (d, as, bs, cs) =>
    cs.flatMap fun c => bs.flatMap fun b => as.map fun a => d + 100 * a + 1000 * b + 10000 * c

/-! ### Pseudo-instructions (R82): the spec's own (D18). The written forms are in Machine/Assembler.lean. -/

/-- `jmp T` is `jt #1, T` (R82). -/
def Instr.jmp (t : Param) : Instr := .jumpIfTrue ⟨.immediate, 1⟩ t

/-- `mov S, D` is `add S, #0, D` (R82). -/
def Instr.mov (src dst : Param) : Instr := .add src ⟨.immediate, 0⟩ dst

/-- `nop` is `jf #1, #0` (R82). -/
def Instr.nop : Instr := .jumpIfFalse ⟨.immediate, 1⟩ ⟨.immediate, 0⟩

/-! ### The words of the opcode table -/

/-- An instruction whose bits are `w`, numbered from bit 0 of its first word, laid out as atoms: 64 bits an atom, the
first word first, and zero above `nbits`. Four atoms, the longest instruction (R60). An atom has no byte order
(spec/20_memory.md R41). -/
def tableWords (nbits w : Nat) : List Atom :=
  [0, 1, 2, 3].map fun k => BitVec.ofNat 64 ((w % 2 ^ nbits) / 2 ^ (64 * k))

/-- The instruction the decoder reads from an instruction whose bits are `w`. -/
def decodeTableWord (nbits w : Nat) : Option Instr :=
  match decode (tableWords nbits w) with
  | .ok (i, _) => some i
  | .error _ => none

end Sys2Proof
end

