-- ==== Sys2Proof/Config.lean ====
section
/-! DEFINITION. The parameters of an implementation of the Intcode core (spec/00_scope.md R7 to R9).

`ATOM_BITS` is fixed at 64 by the spec (R7, D1): it is the width of `Sys2Proof.Atom` in Word.lean and no field here.
The other two stay open, as parameters with a default (D3, D4). The spec leaves no value free (R105: a step "draws no
value"), so this file holds no opaque constant. -/

namespace Sys2Proof

/-- The two open parameters. They are "not state of the core" (spec/10_state.md R34); log entry 2 says how they reach
`step`. -/
structure Config where
  /-- `MEM_LIMIT` (R8): an access at an address at or beyond `L` raises `MemoryLimitExceeded`; `none` is unbounded. -/
  memLimit : Option Nat
  /-- `OUTPUT_SUSPENDS` (R9): whether a committed Output step returns `Output` with the value instead of `Ready`. -/
  outputSuspends : Bool
  deriving DecidableEq, Repr

/-- The defaults the spec gives: `MEM_LIMIT = none` (R8), `OUTPUT_SUSPENDS = false` (R9). -/
def Config.standard : Config := { memLimit := none, outputSuspends := false }

end Sys2Proof
end

