-- ==== Sys2Proof/Machine/State.lean ====
section
/-! DEFINITION. The state of the Intcode core (spec/10_state.md) as plain data, the reasons a step could stop, and the
state after reset. -/

namespace Sys2Proof.Machine

/-- The memory tape (spec/10_state.md R25, R26). `cells` lists the cells that do not hold 0, by address; an address that
is not listed reads 0. A cell is one atom: the core has no bytes (spec/20_memory.md R41, D15; log entry 3). -/
structure Memory where
  cells : List (Nat × Atom)
  len : Nat
  deriving DecidableEq, Repr

/-- The status latch (spec/10_state.md R29). -/
inductive Status where
  /-- "can execute another instruction". -/
  | ready
  /-- Terminal: a Halt executed. -/
  | halted
  /-- "suspended, resumable once input is supplied". -/
  | blockedOnInput
  /-- Terminal: the error the core stopped with. -/
  | error (kind : ErrorKind)
  deriving DecidableEq, Repr

/-- Everything the core holds (spec/10_state.md R32), and in `cfg` the parameters it is built with. -/
structure State where
  /-- `M` and `len`: R25, R26. -/
  mem : Memory
  /-- The instruction pointer: R21, R22. -/
  ip : Atom
  /-- The relative base: R23. -/
  rb : Atom
  /-- The input queue, head first: R27. -/
  inq : List Atom
  /-- The output queue, head (oldest) first: R28. -/
  outq : List Atom
  /-- The status latch: R29. -/
  status : Status
  /-- The tick counter: R30. -/
  tick : Nat
  /-- The parameters of the implementation, which nothing writes: not state of the core (R34; log entry 2). -/
  cfg : Config
  deriving DecidableEq, Repr

/-- Reasons a step could stop the model with no next state: NONE. Every error of the spec is a next state, with the
status latch written (spec/40_execution_cycle.md R98, R92), so no constructor is needed and nobody raises one (safe; log
entry 1). -/
inductive Fault where
  deriving DecidableEq, Repr

/-- Reasons the model could refuse an instruction. -/
inductive Refusal where
  /-- An instruction without a meaning, raised by an arm of `exec` only. No arm raises it: every instruction has its
  meaning (safe). -/
  | notModelled (mnemonic : String)
  deriving DecidableEq, Repr

/-- How an execute stage ends when it raises no error (spec/40_execution_cycle.md R96). -/
inductive Ending where
  /-- `Continue(ip_next)`, with the working copy to commit. -/
  | advance (copy : State) (ipNext : Atom)
  /-- `Halt`. -/
  | halt
  /-- `Block`. -/
  | block
  deriving DecidableEq, Repr

/-- The state after reset with the empty program, `from_program([])` of spec/70_reset_and_hazards.md R210, under the
default parameters: every value is the one of spec/10_state.md R32 (log entries 2, 4 and 11). -/
def State.reset : State :=
  { mem := { cells := [], len := 0 }
    ip := 0
    rb := 0
    inq := []
    outq := []
    status := .ready
    tick := 0
    cfg := Config.standard }

end Sys2Proof.Machine
end

