-- ==== Sys2Proof/Machine/Ops.lean ====
section
/-! DEFINITION. The named operations over memory, registers, queues and the status latch, taking an error, and fetching
an instruction. Every read and write of a piece of state goes through one of these. -/

namespace Sys2Proof.Machine

/-! ### The memory tape (spec/20_memory.md) -/

/-- The value listed for an address, 0 where none is. -/
def lookupCell (a : Nat) : List (Nat × Atom) → Atom
  | [] => 0
  | (b, v) :: rest => if b = a then v else lookupCell a rest

/-- Insert a cell before the first cell with a greater address. -/
def insertCell (a : Nat) (v : Atom) : List (Nat × Atom) → List (Nat × Atom)
  | [] => [(a, v)]
  | (b, u) :: rest => if a < b then (a, v) :: (b, u) :: rest else (b, u) :: insertCell a v rest

/-- `M[a]`, for any address: 0 at or beyond `len` (spec/10_state.md R25). -/
def Memory.get (m : Memory) (a : Nat) : Atom := if a < m.len then lookupCell a m.cells else 0

/-- Growth: the tape is made at least `n` cells long, every new cell 0 (R43, R46). -/
def Memory.growTo (m : Memory) (n : Nat) : Memory :=
  if n ≤ m.len then m else { cells := m.cells.filter (fun c => c.1 < m.len), len := n }

/-- `M[a] <- v`, for a cell within the tape. Storing 0 removes the cell from the list (log entry 3). -/
def Memory.set (m : Memory) (a : Nat) (v : Atom) : Memory :=
  let others := m.cells.filter (fun c => c.1 ≠ a)
  { m with cells := if v = 0 then others else insertCell a v others }

/-- Growth as far as an address, then `M[a] <- v`: the effect of a write that is allowed (R45). -/
def Memory.store (m : Memory) (a : Nat) (v : Atom) : Memory := (m.growTo (a + 1)).set a v

/-- Consecutive cells from an address on. -/
def Memory.storeList (m : Memory) (a : Nat) : List Atom → Memory
  | [] => m
  | v :: vs => (m.store a v).storeList (a + 1) vs

/-- The `n` cells from an address on. -/
def Memory.window (m : Memory) (a n : Nat) : List Atom := (List.range n).map fun k => m.get (a + k)

/-- The canonical form: addresses strictly rise, no listed cell holds 0, and every listed cell lies within the tape. -/
abbrev Memory.wf (m : Memory) : Prop :=
  m.cells.Pairwise (fun x y => x.1 < y.1) ∧ (∀ c ∈ m.cells, c.2 ≠ 0 ∧ c.1 < m.len)

/-- Whether `MEM_LIMIT` admits an access at an address (R44). -/
def limitAdmits (cfg : Config) (a : Nat) : Bool :=
  match cfg.memLimit with
  | none => true
  | some l => a < l

/-- The checks an access makes before it touches the tape, in the order of R43 to R45: a negative address, then
`MEM_LIMIT`. It gives the address as a natural number. -/
def checkAccess (cfg : Config) (a : Atom) (kind : AccessKind) : Except ErrorKind Nat :=
  if a.toInt < 0 then .error (.outOfBoundsAddress a kind)
  else if limitAdmits cfg a.toNat then .ok a.toNat
  else .error (.memoryLimitExceeded a)

/-- The working copy with another tape. -/
def State.setMem (s : State) (m : Memory) : State := { s with mem := m }

/-- `MemRead(a, 1)` on the working copy (R43): the value, and the copy with the tape grown. -/
def memRead (a : Atom) (s : State) : Except ErrorKind (Atom × State) := do
  let n ← checkAccess s.cfg a .read
  .ok ((s.mem.growTo (n + 1)).get n, s.setMem (s.mem.growTo (n + 1)))

/-- `MemWrite(a, 1, v)` on the working copy (R45). -/
def memWrite (a v : Atom) (s : State) : Except ErrorKind State := do
  let n ← checkAccess s.cfg a .write
  .ok (s.setMem (s.mem.store n v))

/-! ### Registers and queues -/

/-- `rb <- v`, on the working copy (spec/45_relbase_halt.md R170). -/
def State.setRb (s : State) (v : Atom) : State := { s with rb := v }

/-- `push_back(outq, v)` (spec/00_scope.md R14). -/
def State.pushOutput (s : State) (v : Atom) : State := { s with outq := s.outq ++ [v] }

/-- `push_back(inq, v)` (spec/00_scope.md R14). -/
def State.pushInput (s : State) (v : Atom) : State := { s with inq := s.inq ++ [v] }

/-- `front(inq)` and `pop_front(inq)`, where `inq` is not empty (spec/00_scope.md R14). -/
def State.popInput? (s : State) : Option (Atom × State) :=
  match s.inq with
  | [] => none
  | v :: rest => some (v, { s with inq := rest })

/-! ### Computed atoms (spec/40_execution_cycle.md R100) -/

/-- The range check of R100: the atom an exact value makes, or `ArithmeticOverflow` with the word of the instruction
being executed. No computation wraps. -/
def checked (w : Atom) (v : Int) : Except ErrorKind Atom :=
  match Atom.ofInt? v with
  | some a => .ok a
  | none => .error (.arithmeticOverflow w)

/-! ### Taking an error, and the other endings of a step (spec/40_execution_cycle.md R98, R99)

There is no return from an error (spec/60_exceptions.md R191): a terminal status is left by a reset only. -/

/-- Taking an error: `status <- Error(kind)`, and nothing else changes (R98; spec/60_exceptions.md R188, R189). -/
def State.raise (s : State) (kind : ErrorKind) : State := { s with status := .error kind }

/-- The `Halt` ending: `status <- Halted`, `ip` and `tick` unchanged (R99). -/
def State.stopHalted (s : State) : State := { s with status := .halted }

/-- The `Block` ending: `status <- BlockedOnInput`, `ip` and `tick` unchanged (R99). -/
def State.suspend (s : State) : State := { s with status := .blockedOnInput }

/-- The `Continue` ending: the live state takes the working copy's tape, `rb` and queues, then `ip`, `tick` and `status`
are written (R99, R97). -/
def State.commit (s copy : State) (ipNext : Atom) : State :=
  { s with
    mem := copy.mem
    rb := copy.rb
    inq := copy.inq
    outq := copy.outq
    ip := ipNext
    tick := s.tick + 1
    status := .ready }

/-- The state after a step whose execute stage ended in `r` (R98, R99). An error, a halt or a block discards the working
copy, its growth included (D9). -/
def State.settle (s : State) (r : Except ErrorKind Ending) : State :=
  match r with
  | .error k => s.raise k
  | .ok .halt => s.stopHalted
  | .ok .block => s.suspend
  | .ok (.advance copy n) => s.commit copy n

/-- A latched terminal status: the core executes nothing more (R92). -/
def Status.terminal : Status → Bool
  | .ready => false
  | .halted => true
  | .blockedOnInput => false
  | .error _ => true

/-! ### Fetch (spec/40_execution_cycle.md R93 to R95) -/

/-- The working copy an execute stage of an instruction of `n` atoms starts from: the fetch of the word and of the
parameter words has grown the tape over them (R93, R95; log entry 8). -/
def State.fetched (s : State) (n : Nat) : State := s.setMem (s.mem.growTo (s.ip.toInt + n).toNat)

/-- The parameter words at `ip + k`, `ip + k + 1`, ..., `n` of them, each address range-checked before it is read (R95). -/
def fetchParams (w : Atom) : Nat → Nat → State → Except ErrorKind (List Atom × State)
  | 0, _, s => .ok ([], s)
  | n + 1, k, s => do
    let a ← checked w (s.ip.toInt + k)
    let (p, s1) ← memRead a s
    let (ps, s2) ← fetchParams w n (k + 1) s1
    .ok (p :: ps, s2)

/-- Fetch, decode and parameter fetch of one step (R93 to R95): the instruction at `ip`, or the first error. A word that
does not decode fetches no parameter words (spec/30_encoding.md R70). -/
def fetchInstr (s : State) : Except ErrorKind Instr := do
  let (w, s1) ← memRead s.ip s
  let h ← decodeWord w
  let (ps, _) ← fetchParams w h.row.arity 1 s1
  .ok (h.instr ps)

/-! ### Placing an instruction where the next step fetches (log entry 5) -/

/-- `s` made ready to fetch: a latched terminal status would ignore the step (R92), and an `ip` that is negative, or whose
`ip + 3` is no address, has no room for the four atoms of the longest instruction (R93, R95). Those two, and only those,
are reset. -/
def State.readyToFetch (s : State) : State :=
  { s with
    status := if s.status.terminal then .ready else s.status
    ip := if 0 ≤ s.ip.toInt ∧ InAtom (s.ip.toInt + 3) then s.ip else 0 }

/-- `s` made ready to fetch, with the atoms `ws` stored from `ip` on. -/
def State.placeAtIp (s : State) (ws : List Atom) : State :=
  s.readyToFetch.setMem (s.mem.storeList s.readyToFetch.ip.toNat ws)

end Sys2Proof.Machine
end

