-- ==== Sys2Proof/Machine/Operands.lean ====
section
/-! DEFINITION. The operand resolver (spec/20_memory.md R48 to R51), the only place where a parameter mode selects
behaviour (R50), and the shapes of execute stage that instructions share. -/

namespace Sys2Proof.Machine

/-- `resolve_read(p, m)` on the working copy (R48). `w` is the instruction word, for the range check of `p + rb`. -/
def resolveRead (w : Atom) (p : Param) (s : State) : Except ErrorKind (Atom × State) :=
  match p.mode with
  | .position => memRead p.raw s
  | .immediate => .ok (p.raw, s)
  | .relative => do
    let a ← checked w (p.raw.toInt + s.rb.toInt)
    memRead a s

/-- `resolve_write_addr(p, m)` (R49): the address is not checked here but by the write. The decoder has already refused
Immediate; for a term that no word decodes to, the source's "treat as `BadParameterMode`" is followed (log entry 6). -/
def resolveWriteAddr (w : Atom) (p : Param) (s : State) : Except ErrorKind Atom :=
  match p.mode with
  | .position => .ok p.raw
  | .immediate => .error (.badParameterMode 1)
  | .relative => checked w (p.raw.toInt + s.rb.toInt)

/-- The fall-through `ip + length`, range-checked (spec/40_execution_cycle.md R100, R101, R104). -/
def fallThrough (w : Atom) (length : Nat) (s : State) : Except ErrorKind Atom :=
  checked w (s.ip.toInt + length)

/-- The execute stage shared by Add, Multiply, LessThan and Equals: two reads, a write address, an exact result that must
be an atom, the write, the advance (spec/41_arithmetic.md R120, R121; spec/44_compare.md R160, R161). -/
def binaryStage (f : Int → Int → Int) (w : Atom) (a b c : Param) (s : State) : Except ErrorKind Ending := do
  let (x, s1) ← resolveRead w a (s.fetched 4)
  let (y, s2) ← resolveRead w b s1
  let d ← resolveWriteAddr w c s2
  let r ← checked w (f x.toInt y.toInt)
  let s3 ← memWrite d r s2
  let n ← fallThrough w 4 s
  .ok (.advance s3 n)

/-- The execute stage shared by JumpIfTrue and JumpIfFalse: both operands are read, then the jump is taken or not. The
target is a value and is not checked (spec/43_jumps.md R150 to R152). -/
def jumpStage (taken : Atom → Bool) (w : Atom) (a t : Param) (s : State) : Except ErrorKind Ending := do
  let (pred, s1) ← resolveRead w a (s.fetched 3)
  let (target, s2) ← resolveRead w t s1
  if taken pred then .ok (.advance s2 target)
  else do
    let n ← fallThrough w 3 s
    .ok (.advance s2 n)

/-- The execute stage of Input (spec/42_io.md R130): the write address comes before the block, the write after it (D8). -/
def inputStage (w : Atom) (c : Param) (s : State) : Except ErrorKind Ending := do
  let d ← resolveWriteAddr w c (s.fetched 2)
  match (s.fetched 2).popInput? with
  | none => .ok .block
  | some (v, s1) => do
    let s2 ← memWrite d v s1
    let n ← fallThrough w 2 s
    .ok (.advance s2 n)

/-- The execute stage of Output (spec/42_io.md R131). -/
def outputStage (w : Atom) (a : Param) (s : State) : Except ErrorKind Ending := do
  let (x, s1) ← resolveRead w a (s.fetched 2)
  let n ← fallThrough w 2 s
  .ok (.advance (s1.pushOutput x) n)

/-- The execute stage of AdjustRelativeBase (spec/45_relbase_halt.md R170): a Relative operand is resolved against the
old `rb`. -/
def adjustStage (w : Atom) (a : Param) (s : State) : Except ErrorKind Ending := do
  let (x, s1) ← resolveRead w a (s.fetched 2)
  let r ← checked w (s.rb.toInt + x.toInt)
  let n ← fallThrough w 2 s
  .ok (.advance (s1.setRb r) n)

end Sys2Proof.Machine
end

