-- ==== Sys2Proof/Machine/Arithmetic.lean ====
section
/-! DEFINITION. Add and Multiply (spec/41_arithmetic.md): exact, signed, never wrapped (R122). -/

namespace Sys2Proof.Machine

/-- Add, `add A, B, C` (R120). -/
def execAdd (a b c : Param) (s : State) : Host.Outcome State Fault Refusal :=
  .next (s.settle (binaryStage (fun x y => x + y) (encodeWord (.add a b c)) a b c s))

/-- Multiply, `mul A, B, C` (R121). -/
def execMul (a b c : Param) (s : State) : Host.Outcome State Fault Refusal :=
  .next (s.settle (binaryStage (fun x y => x * y) (encodeWord (.mul a b c)) a b c s))

end Sys2Proof.Machine
end

