-- ==== Sys2Proof/Machine/Flags.lean ====
section
/-! DEFINITION. The core has no status flags, condition codes or predicate registers (spec/10_state.md R24). What stands
in their place: the 0 or 1 a comparison stores, and the test a jump makes of its predicate operand. -/

namespace Sys2Proof.Machine

/-- The result of LessThan: signed, 1 or 0 (spec/44_compare.md R160). -/
def lessThanResult (x y : Int) : Int := if x < y then 1 else 0

/-- The result of Equals: of the full atom, 1 or 0 (spec/44_compare.md R161). -/
def equalsResult (x y : Int) : Int := if x = y then 1 else 0

/-- JumpIfTrue jumps on any nonzero predicate (spec/43_jumps.md R150). -/
def jumpsOnTrue (pred : Atom) : Bool := pred ≠ 0

/-- JumpIfFalse jumps on a predicate of exactly 0 (spec/43_jumps.md R151). -/
def jumpsOnFalse (pred : Atom) : Bool := pred = 0

end Sys2Proof.Machine
end

