-- ==== Sys2Proof/Machine/Compare.lean ====
section
/-! DEFINITION. LessThan and Equals (spec/44_compare.md). -/

namespace Sys2Proof.Machine

/-- LessThan, `lt A, B, C` (R160). -/
def execLessThan (a b c : Param) (s : State) : Host.Outcome State Fault Refusal :=
  .next (s.settle (binaryStage lessThanResult (encodeWord (.lessThan a b c)) a b c s))

/-- Equals, `eq A, B, C` (R161). -/
def execEquals (a b c : Param) (s : State) : Host.Outcome State Fault Refusal :=
  .next (s.settle (binaryStage equalsResult (encodeWord (.equals a b c)) a b c s))

end Sys2Proof.Machine
end

