-- ==== Sys2Proof/Machine/InputOutput.lean ====
section
/-! DEFINITION. Input and Output (spec/42_io.md). -/

namespace Sys2Proof.Machine

/-- Input, `in C` (R130). -/
def execInput (c : Param) (s : State) : Host.Outcome State Fault Refusal :=
  .next (s.settle (inputStage (encodeWord (.input c)) c s))

/-- Output, `out A` (R131). -/
def execOutput (a : Param) (s : State) : Host.Outcome State Fault Refusal :=
  .next (s.settle (outputStage (encodeWord (.output a)) a s))

end Sys2Proof.Machine
end

