-- ==== Sys2Proof/Machine/Jumps.lean ====
section
/-! DEFINITION. JumpIfTrue and JumpIfFalse (spec/43_jumps.md). -/

namespace Sys2Proof.Machine

/-- JumpIfTrue, `jt A, T` (R150). -/
def execJumpIfTrue (a t : Param) (s : State) : Host.Outcome State Fault Refusal :=
  .next (s.settle (jumpStage jumpsOnTrue (encodeWord (.jumpIfTrue a t)) a t s))

/-- JumpIfFalse, `jf A, T` (R151). -/
def execJumpIfFalse (a t : Param) (s : State) : Host.Outcome State Fault Refusal :=
  .next (s.settle (jumpStage jumpsOnFalse (encodeWord (.jumpIfFalse a t)) a t s))

end Sys2Proof.Machine
end

