-- ==== Sys2Proof/Machine/RelBaseHalt.lean ====
section
/-! DEFINITION. AdjustRelativeBase and Halt (spec/45_relbase_halt.md). -/

namespace Sys2Proof.Machine

/-- AdjustRelativeBase, `arb A` (R170). -/
def execAdjustRelativeBase (a : Param) (s : State) : Host.Outcome State Fault Refusal :=
  .next (s.settle (adjustStage (encodeWord (.adjustRelativeBase a)) a s))

/-- Halt, `hlt` (R171). -/
def execHalt (s : State) : Host.Outcome State Fault Refusal := .next (s.settle (.ok .halt))

end Sys2Proof.Machine
end

