-- ==== Sys2Proof/Machine/Dispatch.lean ====
section
/-! DEFINITION. The dispatch of spec/40_execution_cycle.md R96: one arm per instruction. -/

namespace Sys2Proof.Machine

def exec (i : Instr) (s : State) : Host.Outcome State Fault Refusal :=
  match i with
  | .add a b c => Sys2Proof.Machine.execAdd a b c s
  | .mul a b c => Sys2Proof.Machine.execMul a b c s
  | .input c => Sys2Proof.Machine.execInput c s
  | .output a => Sys2Proof.Machine.execOutput a s
  | .jumpIfTrue a t => Sys2Proof.Machine.execJumpIfTrue a t s
  | .jumpIfFalse a t => Sys2Proof.Machine.execJumpIfFalse a t s
  | .lessThan a b c => Sys2Proof.Machine.execLessThan a b c s
  | .equals a b c => Sys2Proof.Machine.execEquals a b c s
  | .adjustRelativeBase a => Sys2Proof.Machine.execAdjustRelativeBase a s
  | .halt => Sys2Proof.Machine.execHalt s

end Sys2Proof.Machine
end

