-- ==== Sys2Proof/Machine/Step.lean ====
section
/-! DEFINITION. The step (spec/40_execution_cycle.md R104). `exec i s` is the whole of the step from the execute stage on,
for the instruction `i` fetched at `ip` of `s`. -/

namespace Sys2Proof.Machine

/-- One step (R104): a latched terminal status is left as it is (R92); otherwise fetch, decode and parameter fetch, whose
first error ends the step (R98), then the instruction. `BlockedOnInput` runs as `Ready` does (R103). -/
def step (s : State) : Host.Outcome State Fault Refusal :=
  if s.status.terminal then .next s
  else
    match fetchInstr s with
    | .error k => .next (s.raise k)
    | .ok i => exec i s

/-- `s` with the instruction whose bits are `w` (numbered as `decodeTableWord` numbers them) stored where the next step
fetches (log entry 5). -/
def State.withFetchWord (s : State) (nbits w : Nat) : State := s.placeAtIp (tableWords nbits w)

end Sys2Proof.Machine
end

