-- ==== Sys2Proof/Machine/Assembler.lean ====
section
/-! DEFINITION. The assembler of spec/30_encoding.md R80 to R82, which is the spec's own (D18): a program as a list of
lines, the written form of a line, and the atoms a program assembles to. It is no part of the machine: the core takes the
atoms (R86). -/

namespace Sys2Proof

/-- `n`: "a signed decimal atom or a label" (R80). -/
inductive AsmValue where
  | num (n : Atom)
  | label (name : String)
  deriving DecidableEq, Repr

/-- An operand: `[n]`, `#n`, `[rb+n]`, or, negated, `[rb-n]` (R80). -/
structure AsmOperand where
  mode : Mode
  negated : Bool
  value : AsmValue
  deriving DecidableEq, Repr

/-- A line (R80, R82). -/
inductive AsmLine where
  /-- `name:` -/
  | label (name : String)
  /-- `mnemonic operand, operand, ...` -/
  | core (op : Opcode) (operands : List AsmOperand)
  /-- `jmp T` -/
  | jmp (t : AsmOperand)
  /-- `mov S, D` -/
  | mov (src dst : AsmOperand)
  /-- `nop` -/
  | nop
  /-- `.atom v1, v2, ...` -/
  | atoms (values : List AsmValue)
  /-- `; text` -/
  | comment (text : String)
  deriving DecidableEq, Repr

/-! ### The written form (R80) -/

/-- The mnemonic of each opcode (R62). -/
def Opcode.mnemonic : Opcode → String
  | .add => "add"
  | .multiply => "mul"
  | .input => "in"
  | .output => "out"
  | .jumpIfTrue => "jt"
  | .jumpIfFalse => "jf"
  | .lessThan => "lt"
  | .equals => "eq"
  | .adjustRelativeBase => "arb"
  | .halt => "hlt"

def AsmValue.text : AsmValue → String
  | .num n => toString n.toInt
  | .label name => name

def AsmOperand.text (o : AsmOperand) : String :=
  match o.mode with
  | .position => "[" ++ o.value.text ++ "]"
  | .immediate => "#" ++ o.value.text
  | .relative => (if o.negated then "[rb-" else "[rb+") ++ o.value.text ++ "]"

/-- A word and the list it introduces, separated by commas. -/
def listing (head : String) (items : List String) : String :=
  match items with
  | [] => head
  | _ => head ++ " " ++ String.intercalate ", " items

def AsmLine.text : AsmLine → String
  | .label name => name ++ ":"
  | .core op os => listing op.mnemonic (os.map AsmOperand.text)
  | .jmp t => listing "jmp" [t.text]
  | .mov s d => listing "mov" [s.text, d.text]
  | .nop => "nop"
  | .atoms vs => listing ".atom" (vs.map AsmValue.text)
  | .comment c => "; " ++ c

/-- How a parameter is written: `[rb-n]` for a negative word in Relative mode, where `n` is an atom. -/
def Param.toAsm (p : Param) : AsmOperand :=
  if p.mode = .relative ∧ p.raw.toInt < 0 ∧ InAtom (-p.raw.toInt) then ⟨.relative, true, .num (BitVec.ofInt 64 (-p.raw.toInt))⟩
  else ⟨p.mode, false, .num p.raw⟩

/-- How an instruction is written. -/
def Instr.toAsm (i : Instr) : AsmLine := .core i.opcode (i.params.map Param.toAsm)

/-! ### Assembling (R81) -/

/-- The arity of an opcode: the third column of R62. -/
def Opcode.arity (op : Opcode) : Nat :=
  match opcodeMap.find? (fun r => r.opcode == op) with
  | some r => r.arity
  | none => 0

/-- A pseudo-instruction is the core instruction it expands to (R82). -/
def AsmLine.expand : AsmLine → AsmLine
  | .jmp t => .core .jumpIfTrue [⟨.immediate, false, .num 1⟩, t]
  | .mov s d => .core .add [s, ⟨.immediate, false, .num 0⟩, d]
  | .nop => .core .jumpIfFalse [⟨.immediate, false, .num 1⟩, ⟨.immediate, false, .num 0⟩]
  | line => line

/-- How many atoms a line emits. -/
def AsmLine.size (line : AsmLine) : Nat :=
  match line.expand with
  | .core _ os => 1 + os.length
  | .atoms vs => vs.length
  | _ => 0

/-- The value of each label: "the address of the next atom" (R80). The first line is at address `a`. -/
def labelTable (a : Nat) : List AsmLine → List (String × Nat)
  | [] => []
  | .label name :: lines => (name, a) :: labelTable a lines
  | line :: lines => labelTable (a + line.size) lines

/-- The atom a value stands for, where it stands for one. -/
def AsmValue.atom? (table : List (String × Nat)) : AsmValue → Option Atom
  | .num n => some n
  | .label name => (table.lookup name).bind fun a => Atom.ofInt? a

/-- The parameter an operand stands for. Only `[rb-n]` negates its value. -/
def AsmOperand.param? (table : List (String × Nat)) (o : AsmOperand) : Option Param :=
  (o.value.atom? table).bind fun n =>
    (if o.mode = .relative ∧ o.negated = true then Atom.ofInt? (-n.toInt) else some n).map fun raw => ⟨o.mode, raw⟩

/-- All the values of a list, or none. -/
def allOf {α : Type} : List (Option α) → Option (List α)
  | [] => some []
  | none :: _ => none
  | some x :: xs => (allOf xs).map (x :: ·)

/-- The atoms a line emits: an instruction's word and then its operands' words, in parameter order (R81). A line with the
wrong number of operands, or with a value that is no atom, assembles to nothing. -/
def AsmLine.emit (table : List (String × Nat)) (line : AsmLine) : Option (List Atom) :=
  match line.expand with
  | .core op os =>
    if os.length = op.arity then
      (allOf (os.map (AsmOperand.param? table))).map fun ps =>
        BitVec.ofNat 64 (packWord op.digits (ps.map Param.mode)) :: ps.map Param.raw
    else none
  | .atoms vs => allOf (vs.map (AsmValue.atom? table))
  | _ => some []

/-- The atoms of a program, placed from address 0 on (R80, R81). -/
def assemble (lines : List AsmLine) : Option (List Atom) :=
  (allOf (lines.map (AsmLine.emit (labelTable 0 lines)))).map List.flatten

end Sys2Proof
end

