-- ==== Sys2Proof/Machine/HostInterface.lean ====
section
/-! DEFINITION. The host's side of the core (spec/40_execution_cycle.md R91, R106, R110): the result of a step, the run
loop, and the host operations, which act only between steps (R111). -/

namespace Sys2Proof.Machine

/-- The result of a step (R91). -/
inductive StepResult where
  | ready
  | halted (ip : Atom)
  | blockedOnInput (ip : Atom)
  | output (value : Atom)
  | error (kind : ErrorKind)
  deriving DecidableEq, Repr

/-- The codes of the step results (R91): labels of the spec's own (D14). -/
def StepResult.code : StepResult → Nat
  | .ready => 0
  | .halted _ => 1
  | .blockedOnInput _ => 2
  | .output _ => 3
  | .error _ => 4

/-- The codes of the error kinds (spec/60_exceptions.md R180): labels of the spec's own (D14). -/
def errorCode : ErrorKind → Nat
  | .outOfBoundsAddress _ _ => 1
  | .badParameterMode _ => 2
  | .unknownOpcode _ => 3
  | .malformedInstruction _ => 4
  | .arithmeticOverflow _ => 5
  | .memoryLimitExceeded _ => 6

/-- The result a step returns, from the state before it and the state after it (log entry 9). A terminal status is
reported again (R92); an atom added to `outq` is what an Output step returns under `OUTPUT_SUSPENDS` (R99). -/
def observe (before after : State) : StepResult :=
  match after.status with
  | .halted => .halted after.ip
  | .blockedOnInput => .blockedOnInput after.ip
  | .error k => .error k
  | .ready =>
    match before.cfg.outputSuspends, after.outq.drop before.outq.length with
    | true, v :: _ => .output v
    | _, _ => .ready

/-- The state after one step. `step` always answers a next state; the two other outcomes cannot occur. -/
def stateAfterStep (s : State) : State :=
  match step s with
  | .next t => t
  | .fault _ => s
  | .refused _ => s

/-- `step()` as the host calls it (R104): its result and the state after it. -/
def hostStep (s : State) : StepResult × State := (observe s (stateAfterStep s), stateAfterStep s)

/-- `run()` (R106) under fuel (R107, D26): it steps until a result other than `Ready`. `none` says that the fuel ran out
and no stop reason was produced (spec/93_implementation_defined.md U14). -/
def run : Nat → State → Option StepResult × State
  | 0, s => (none, s)
  | fuel + 1, s =>
    match hostStep s with
    | (.ready, t) => run fuel t
    | (r, t) => (some r, t)

/-- `run_with_output` "is the same loop" (R106). -/
def runWithOutput (fuel : Nat) (s : State) : Option StepResult × State := run fuel s

/-- The image of a program as a tape (spec/70_reset_and_hazards.md R210; spec/20_memory.md R53). -/
def programImage (p : List Atom) : Memory := Memory.storeList { cells := [], len := 0 } 0 p

/-- `from_program(P)`: a fresh core, under the given parameters (spec/70_reset_and_hazards.md R210). -/
def fromProgram (cfg : Config) (p : List Atom) : State :=
  { mem := programImage p
    ip := 0
    rb := 0
    inq := []
    outq := []
    status := .ready
    tick := 0
    cfg := cfg }

/-- What the host owes `from_program` and `reset`: the program fits `MEM_LIMIT` (R210, R213) and the legal addresses
(spec/00_scope.md R10). -/
def programFits (cfg : Config) (p : List Atom) : Prop :=
  p.length ≤ 2 ^ 63 ∧ ∀ l, cfg.memLimit = some l → p.length ≤ l

/-- `reset(P)`: the same state as `from_program(P)`, whatever the state before (spec/70_reset_and_hazards.md R211). -/
def resetTo (p : List Atom) (s : State) : State := fromProgram s.cfg p

/-- `add_input(v)` (spec/42_io.md R132). -/
def addInput (v : Atom) (s : State) : State := s.pushInput v

/-- `output()` (spec/42_io.md R133). -/
def outputView (s : State) : List Atom := s.outq

/-- `take_output()` (spec/42_io.md R133): the old `outq`, and the state with it emptied. -/
def takeOutput (s : State) : List Atom × State := (s.outq, { s with outq := [] })

/-- `memory()` (spec/20_memory.md R58): the cells `M[0] .. M[len - 1]`. -/
def memoryView (s : State) : List Atom := s.mem.window 0 s.mem.len

/-- The operations the host has on a core (R110). A run is given the fuel it may use (R107). -/
inductive HostAction where
  | reset (program : List Atom)
  | addInput (value : Atom)
  | step
  | run (fuel : Nat)
  | output
  | takeOutput
  | memory
  deriving DecidableEq, Repr

/-- What the host gets back (R110). -/
inductive HostReply where
  | nothing
  | result (r : StepResult)
  | stopReason (r : Option StepResult)
  | atoms (vs : List Atom)
  deriving DecidableEq, Repr

/-- One host operation (R110). -/
def HostAction.perform (act : HostAction) (s : State) : HostReply × State :=
  match act with
  | .reset p => (.nothing, resetTo p s)
  | .addInput v => (.nothing, Machine.addInput v s)
  | .step => (.result (hostStep s).1, (hostStep s).2)
  | .run fuel => (.stopReason (Machine.run fuel s).1, (Machine.run fuel s).2)
  | .output => (.atoms (outputView s), s)
  | .takeOutput => (.atoms (Machine.takeOutput s).1, (Machine.takeOutput s).2)
  | .memory => (.atoms (memoryView s), s)

/-- Host operations one after another (R111): the state after them. -/
def performAll : List HostAction → State → State
  | [], s => s
  | act :: acts, s => performAll acts (act.perform s).2

end Sys2Proof.Machine
end

