-- ==== Sys2Proof/Safety.lean ====
section
/-! DEFINITION. The terms claims are made in: the invariants of the state, what a run does, what an instruction's operands
are in a state, and which error comes first. Nothing the machine computes uses this file. -/

namespace Sys2Proof.Machine

/-! ### Invariants -/

/-- The tape invariant: the cells are in canonical form (Ops.lean), the tape ends within the legal addresses
(spec/20_memory.md R42), and `len <= L` under `MEM_LIMIT = some L` (spec/10_state.md R26). -/
structure State.Inv (s : State) : Prop where
  wf : s.mem.wf
  addressable : s.mem.len ≤ 2 ^ 63
  limited : ∀ l, s.cfg.memLimit = some l → s.mem.len ≤ l

/-- The latch is honest: a status other than Ready is the one that executing the instruction at `ip` would latch again
(spec/40_execution_cycle.md R92, R98, R99, R103). -/
def State.LatchAgrees (s : State) : Prop :=
  s.status ≠ .ready → step { s with status := .ready } = .next s

/-- A blocked core stands at an Input instruction, and a halted one at a Halt (spec/40_execution_cycle.md R99, R103;
spec/45_relbase_halt.md R171). -/
def State.StandsWhereItStopped (s : State) : Prop :=
  (s.status = .blockedOnInput → ∃ c, fetchInstr s = .ok (.input c)) ∧
    (s.status = .halted → fetchInstr s = .ok .halt)

/-! ### Runs (spec/00_scope.md R19) -/

/-- The state after `n` steps. -/
def stateAfterSteps : Nat → State → State
  | 0, s => s
  | n + 1, s => stateAfterSteps n (stateAfterStep s)

/-- A run has ended: the status is terminal, and only a reset leaves it (R19). -/
abbrev State.Ended (s : State) : Prop := s.status.terminal = true

/-- A safe run of `n` steps: none of them latches an error. -/
def SafeFor (n : Nat) (s : State) : Prop := ∀ k, k ≤ n → ∀ kind, (stateAfterSteps k s).status ≠ .error kind

/-- The host gives only programs the core can hold (spec/70_reset_and_hazards.md R210, R213). -/
def HostAction.fits (cfg : Config) : HostAction → Prop
  | .reset p => programFits cfg p
  | _ => True

/-- The values a sequence of host actions passes to `add_input` (spec/42_io.md R135). -/
def inputsGiven : List HostAction → List Atom
  | [] => []
  | .addInput v :: acts => v :: inputsGiven acts
  | _ :: acts => inputsGiven acts

/-- Everything a sequence of host actions gets from `take_output` (spec/42_io.md R135). -/
def outputsTaken : List HostAction → State → List Atom
  | [], _ => []
  | .takeOutput :: acts, s => s.outq ++ outputsTaken acts (HostAction.takeOutput.perform s).2
  | act :: acts, s => outputsTaken acts (act.perform s).2

/-- The input value one step consumes: the head of the queue, when the step commits an Input (spec/42_io.md R130). -/
def consumedByStep (s : State) : List Atom :=
  match fetchInstr s, (stateAfterStep s).status with
  | .ok (.input _), .ready => s.inq.take 1
  | _, _ => []

/-- The sequence of input values a run consumes. -/
def consumedByRun : Nat → State → List Atom
  | 0, _ => []
  | fuel + 1, s =>
    match hostStep s with
    | (.ready, t) => consumedByStep s ++ consumedByRun fuel t
    | _ => consumedByStep s

/-- The sequence of input values the steps of a sequence of host actions consume (spec/42_io.md R135). -/
def inputsConsumed : List HostAction → State → List Atom
  | [], _ => []
  | .step :: acts, s => consumedByStep s ++ inputsConsumed acts (HostAction.step.perform s).2
  | .run fuel :: acts, s => consumedByRun fuel s ++ inputsConsumed acts ((HostAction.run fuel).perform s).2
  | act :: acts, s => inputsConsumed acts (act.perform s).2

/-! ### Operands in a state (spec/20_memory.md R48 to R51) -/

/-- The exact effective address of a Position or Relative parameter (R51). -/
def effectiveAddress (s : State) (p : Param) : Int :=
  match p.mode with
  | .position => p.raw.toInt
  | .immediate => p.raw.toInt
  | .relative => p.raw.toInt + s.rb.toInt

/-- The value of a read parameter (R51): the parameter word itself, or the cell at the effective address. -/
def operandValue (s : State) (p : Param) : Int :=
  match p.mode with
  | .immediate => p.raw.toInt
  | _ => (s.mem.get (effectiveAddress s p).toNat).toInt

/-- An exact address the core may access: legal (R42) and admitted by `MEM_LIMIT` (R44). -/
abbrev Accessible (s : State) (v : Int) : Prop :=
  0 ≤ v ∧ v ≤ 9223372036854775807 ∧ limitAdmits s.cfg v.toNat = true

/-- A parameter that can be read in a state. -/
abbrev Readable (s : State) (p : Param) : Prop :=
  p.mode = .immediate ∨ Accessible s (effectiveAddress s p)

/-- A parameter that can be written through in a state. -/
abbrev Writable (s : State) (p : Param) : Prop :=
  p.mode ≠ .immediate ∧ Accessible s (effectiveAddress s p)

/-- The tape length that reading a parameter asks for (R43). -/
def lengthRead (s : State) (p : Param) : Nat :=
  match p.mode with
  | .immediate => 0
  | _ => (effectiveAddress s p).toNat + 1

/-- The output value one step produces: the value of its operand, when the step commits an Output (spec/42_io.md R131). -/
def producedByStep (s : State) : List Atom :=
  match fetchInstr s, (stateAfterStep s).status with
  | .ok (.output a), .ready => [BitVec.ofInt 64 (operandValue s a)]
  | _, _ => []

/-- The sequence of output values a run produces. -/
def producedByRun : Nat → State → List Atom
  | 0, _ => []
  | fuel + 1, s =>
    match hostStep s with
    | (.ready, t) => producedByStep s ++ producedByRun fuel t
    | _ => producedByStep s

/-- The sequence of output values the steps of a sequence of host actions produce (spec/42_io.md R135). -/
def outputsProduced : List HostAction → State → List Atom
  | [], _ => []
  | .step :: acts, s => producedByStep s ++ outputsProduced acts (HostAction.step.perform s).2
  | .run fuel :: acts, s => producedByRun fuel s ++ outputsProduced acts ((HostAction.run fuel).perform s).2
  | act :: acts, s => outputsProduced acts (act.perform s).2

/-! ### What a step leaves and what it changes -/

/-- Every cell reads as before. -/
def SameCells (s t : State) : Prop := ∀ a, t.mem.get a = s.mem.get a

/-- The cell at address `d` holds `v`, and every other cell reads as before. -/
def StoresOneCell (s t : State) (d : Nat) (v : Int) : Prop :=
  (t.mem.get d).toInt = v ∧ ∀ a, a ≠ d → t.mem.get a = s.mem.get a

/-- The write parameter of an instruction, where it has one (spec/30_encoding.md R62). -/
def writeParam? : Instr → Option Param
  | .add _ _ c => some c
  | .mul _ _ c => some c
  | .input c => some c
  | .output _ => none
  | .jumpIfTrue _ _ => none
  | .jumpIfFalse _ _ => none
  | .lessThan _ _ c => some c
  | .equals _ _ c => some c
  | .adjustRelativeBase _ => none
  | .halt => none

/-- The address one step writes, if the step commits a write (spec/20_memory.md R52). -/
def cellWritten (s : State) : Option Nat :=
  match fetchInstr s, (stateAfterStep s).status with
  | .ok i, .ready => (writeParam? i).map fun c => (effectiveAddress s c).toNat
  | _, _ => none

/-- The addresses a run writes, in order. -/
def cellsWrittenByRun : Nat → State → List Nat
  | 0, _ => []
  | fuel + 1, s =>
    match hostStep s with
    | (.ready, t) => (cellWritten s).toList ++ cellsWrittenByRun fuel t
    | _ => (cellWritten s).toList

/-- The addresses the steps of one host action write. -/
def HostAction.cellsWritten (act : HostAction) (s : State) : List Nat :=
  match act with
  | .step => (cellWritten s).toList
  | .run fuel => cellsWrittenByRun fuel s
  | .reset _ | .addInput _ | .output | .takeOutput | .memory => []

/-- The addresses the steps of a sequence of host actions write. -/
def cellsWrittenByAll : List HostAction → State → List Nat
  | [], _ => []
  | act :: acts, s => act.cellsWritten s ++ cellsWrittenByAll acts (act.perform s).2

/-- The exact value an instruction stores in a state, where it stores one (spec/41_arithmetic.md R120, R121;
spec/44_compare.md R160, R161; spec/42_io.md R130). -/
def storedValue (s : State) : Instr → Option Int
  | .add a b _ => some (operandValue s a + operandValue s b)
  | .mul a b _ => some (operandValue s a * operandValue s b)
  | .input _ => s.inq.head?.map BitVec.toInt
  | .output _ => none
  | .jumpIfTrue _ _ => none
  | .jumpIfFalse _ _ => none
  | .lessThan a b _ => some (if operandValue s a < operandValue s b then 1 else 0)
  | .equals a b _ => some (if operandValue s a = operandValue s b then 1 else 0)
  | .adjustRelativeBase _ => none
  | .halt => none

/-- A committed step (spec/40_execution_cycle.md R99) that leaves `ip` at `ip'`. -/
def Committed (s t : State) (ip' : Int) : Prop :=
  t.ip.toInt = ip' ∧ t.tick = s.tick + 1 ∧ t.status = .ready ∧ t.cfg = s.cfg

/-! ### Which error comes first (spec/40_execution_cycle.md R102) -/

/-- The range check of R100 on an exact value. -/
def rangeFailure (w : Atom) (v : Int) : Option ErrorKind :=
  if InAtom v then none else some (.arithmeticOverflow w)

/-- The checks of an access (spec/20_memory.md R43 to R45) at an address in the atom range. -/
def accessFailure (s : State) (v : Int) (kind : AccessKind) : Option ErrorKind :=
  if v < 0 then some (.outOfBoundsAddress (BitVec.ofInt 64 v) kind)
  else if limitAdmits s.cfg v.toNat then none
  else some (.memoryLimitExceeded (BitVec.ofInt 64 v))

/-- What goes wrong in a list of checks: the first failure (R102: "reports the first one in this order"). -/
def firstFailure (checks : List (Option ErrorKind)) : Option ErrorKind := checks.findSome? id

/-- The checks of a read parameter: item 5 of R102. -/
def readChecks (w : Atom) (s : State) (p : Param) : List (Option ErrorKind) :=
  match p.mode with
  | .immediate => []
  | _ => [rangeFailure w (effectiveAddress s p), accessFailure s (effectiveAddress s p) .read]

/-- The checks of a write address: item 6 of R102. The decoder has refused an Immediate write parameter (item 3). -/
def writeAddrChecks (w : Atom) (s : State) (p : Param) : List (Option ErrorKind) :=
  [rangeFailure w (effectiveAddress s p)]

/-- The checks of the write itself: item 8 of R102. -/
def writeChecks (s : State) (p : Param) : List (Option ErrorKind) :=
  [accessFailure s (effectiveAddress s p) .write]

/-- The decoder's error for a word, if any: item 3 of R102. -/
def decodeFailure (w : Atom) : Option ErrorKind :=
  match decodeWord w with
  | .error k => some k
  | .ok _ => none

/-- The checks of the parameter fetch for `k = 1 .. n`: item 4 of R102. -/
def paramChecks (w : Atom) (s : State) (n : Nat) : List (Option ErrorKind) :=
  (List.range n).flatMap fun (k : Nat) =>
    [rangeFailure w (s.ip.toInt + (k + 1)), accessFailure s (s.ip.toInt + (k + 1)) .read]

/-- The checks of fetch, decode and parameter fetch: items 2 to 4 of R102. -/
def fetchChecks (s : State) : List (Option ErrorKind) :=
  accessFailure s s.ip.toInt .read :: decodeFailure (s.mem.get s.ip.toNat) ::
    match decodeWord (s.mem.get s.ip.toNat) with
    | .error _ => []
    | .ok h => paramChecks (s.mem.get s.ip.toNat) s h.row.arity

end Sys2Proof.Machine
end

