-- ==== Sys2Proof/Certificates/Slice0/Obligations.lean ====
section
/-! DEFINITION. The statements for the provers. The words they use (`Readable`, `operandValue`, `firstFailure`, ...) are
those of Safety.lean, which are written from the rules of spec/ and not from the machine's definitions. -/

open Sys2Proof Sys2Proof.Machine

/-! ### Reset -/

/-- After reset with the empty program every item of state holds the value of spec/10_state.md R32, under the default
parameters (spec/00_scope.md R8, R9). The empty queues, `Ready` and tick 0 are the spec's own decision D24 (log entry 11);
the empty program is the model's choice for `State.reset` (log entry 4). -/
def Obligations.ResetHoldsTheSpecifiedValues : Prop :=
  State.reset.mem.len = 0 ∧ (∀ a, State.reset.mem.get a = 0) ∧ State.reset.ip = 0 ∧ State.reset.rb = 0 ∧
    State.reset.inq = [] ∧ State.reset.outq = [] ∧ State.reset.status = .ready ∧ State.reset.tick = 0 ∧
      State.reset.cfg = { memLimit := none, outputSuspends := false }

/-- The state after reset meets the invariants whose preservation is stated below. -/
def Obligations.ResetSatisfiesTheInvariants : Prop :=
  State.reset.Inv ∧ State.reset.LatchAgrees ∧ State.reset.StandsWhereItStopped

/-- spec/20_memory.md R53: after construction or reset the program image occupies `0 .. |P| - 1`, execution starts at
address 0, and every address from `|P|` upward reads 0 until it is written: over any sequence of host actions without
another reset, input given and runs among them, such an address reads 0 unless one of their steps writes it. -/
def Obligations.ConstructionPlacesTheProgramImage : Prop :=
  ∀ (cfg : Config) (p : List Atom) (s : State),
    (∀ a (h : a < p.length), (fromProgram cfg p).mem.get a = p[a]) ∧
      (∀ a, p.length ≤ a → (fromProgram cfg p).mem.get a = 0) ∧ (fromProgram cfg p).ip = 0 ∧
        (∀ a (h : a < p.length), (resetTo p s).mem.get a = p[a]) ∧
          (∀ a, p.length ≤ a → (resetTo p s).mem.get a = 0) ∧ (resetTo p s).ip = 0 ∧
            ∀ acts : List HostAction, (∀ q, HostAction.reset q ∉ acts) → ∀ a, p.length ≤ a →
              (a ∉ cellsWrittenByAll acts (fromProgram cfg p) → (performAll acts (fromProgram cfg p)).mem.get a = 0) ∧
              (a ∉ cellsWrittenByAll acts (resetTo p s) → (performAll acts (resetTo p s)).mem.get a = 0)

/-- spec/70_reset_and_hazards.md R210 and R211, where construction and reset set every item of state, and reset does so
whatever the state before; the tape length is `|P|` (spec/10_state.md R26). Empty queues, `Ready` and tick 0 are the
spec's own decision D24. -/
def Obligations.ResetForgetsTheStateBefore : Prop :=
  ∀ (p : List Atom) (s : State),
    (HostAction.reset p).perform s = (.nothing, fromProgram s.cfg p) ∧
      (resetTo p s).mem.len = p.length ∧ (resetTo p s).rb = 0 ∧ (resetTo p s).inq = [] ∧ (resetTo p s).outq = [] ∧
        (resetTo p s).status = .ready ∧ (resetTo p s).tick = 0 ∧ (resetTo p s).cfg = s.cfg ∧
          ((resetTo p s).mem.wf)

/-! ### Decoding and encoding -/

/-- Words written out digit by digit from spec/30_encoding.md R61 and R62, each with the instruction it stands for. -/
def Obligations.WrittenOutWordsDecode : Prop :=
  decode [1002, 4, 3, 4] = .ok (.mul ⟨.position, 4⟩ ⟨.immediate, 3⟩ ⟨.position, 4⟩, []) ∧
    decode [22201, 7, 8, 9] = .ok (.add ⟨.relative, 7⟩ ⟨.relative, 8⟩ ⟨.relative, 9⟩, []) ∧
      decode [203, 5] = .ok (.input ⟨.relative, 5⟩, []) ∧
        decode [104, 6] = .ok (.output ⟨.immediate, 6⟩, []) ∧
          decode [2105, 1, 2] = .ok (.jumpIfTrue ⟨.immediate, 1⟩ ⟨.relative, 2⟩, []) ∧
            decode [206, 1, 2] = .ok (.jumpIfFalse ⟨.relative, 1⟩ ⟨.position, 2⟩, []) ∧
              decode [21107, 1, 2, 3] = .ok (.lessThan ⟨.immediate, 1⟩ ⟨.immediate, 2⟩ ⟨.relative, 3⟩, []) ∧
                decode [8, 1, 2, 3] = .ok (.equals ⟨.position, 1⟩ ⟨.position, 2⟩ ⟨.position, 3⟩, []) ∧
                  decode [109, 19] = .ok (.adjustRelativeBase ⟨.immediate, 19⟩, []) ∧ decode [99] = .ok (.halt, [])

/-- Decoding what the encoder wrote gives the instruction back, whatever follows it, for every well-formed instruction
with every operand. -/
def Obligations.DecodeInvertsEncode : Prop :=
  ∀ (i : Instr) (rest : List Atom), i.wellFormed = true → decode (encode i ++ rest) = .ok (i, rest)

/-- Only the encoder's words decode: a list that decodes to an instruction is that instruction's encoding and the atoms
after it, and the instruction is well-formed. -/
def Obligations.EncodeInvertsDecode : Prop :=
  ∀ (ws : List Atom) (i : Instr) (rest : List Atom),
    decode ws = .ok (i, rest) → i.wellFormed = true ∧ ws = encode i ++ rest

/-- spec/30_encoding.md R73 (an inference the spec marks as derived): the words that decode are exactly the non-negative
words of the table, and there are 99 of them. -/
def Obligations.LegalWordsAreExactlyTheTable : Prop :=
  legalWords.length = 99 ∧ legalWords.Nodup ∧
    ∀ w : Atom, (∃ h, decodeWord w = .ok h) ↔ 0 ≤ w.toInt ∧ w.toNat ∈ legalWords

/-- spec/30_encoding.md R64 and spec/60_exceptions.md R182 to R184, with the check order that is the spec's own decision
D7: when the decoder raises each error, and with which field. -/
def Obligations.DecoderErrorsHaveTheirCauses : Prop :=
  ∀ (w : Atom),
    (∀ w', decodeWord w = .error (.unknownOpcode w') ↔
      w' = w ∧ (w.toInt < 0 ∨ w.toNat % 100 ∉ [1, 2, 3, 4, 5, 6, 7, 8, 9, 99])) ∧
    (∀ g, decodeWord w = .error (.badParameterMode g) ↔
      0 ≤ w.toInt ∧ ∃ r ∈ opcodeMap, r.digits = w.toNat % 100 ∧
        ([digit 2 w.toNat, digit 3 w.toNat, digit 4 w.toNat].find? (fun (d : Fin 10) => decide (2 < d.val)) = some g ∨
          (digit 2 w.toNat).val ≤ 2 ∧ (digit 3 w.toNat).val ≤ 2 ∧ (digit 4 w.toNat).val ≤ 2 ∧
            w.toNat / (100 * 10 ^ r.arity) = 0 ∧ g = 1 ∧
              ∃ k, r.writeParam = some k ∧ (digit (k + 1) w.toNat).val = 1)) ∧
    (∀ w', decodeWord w = .error (.malformedInstruction w') ↔
      w' = w ∧ 0 ≤ w.toInt ∧ ∃ r ∈ opcodeMap, r.digits = w.toNat % 100 ∧
        (digit 2 w.toNat).val ≤ 2 ∧ (digit 3 w.toNat).val ≤ 2 ∧ (digit 4 w.toNat).val ≤ 2 ∧
          w.toNat / (100 * 10 ^ r.arity) ≠ 0)

/-- spec/30_encoding.md R66: every parameter whose mode digit is not written is in Position mode, and 1001 is Add with
modes (Position, Immediate, Position). -/
def Obligations.MissingModeDigitMeansPosition : Prop :=
  (∀ (w : Atom) (h : Header), decodeWord w = .ok h → ∀ k, 1 ≤ k → k ≤ 3 → w.toNat < 10 ^ (k + 1) →
    h.modeOf k = .position) ∧
    ∃ h, decodeWord 1001 = .ok h ∧ h.row.opcode = .add ∧ h.m1 = .position ∧ h.m2 = .immediate ∧ h.m3 = .position

/-- spec/30_encoding.md R67: a write parameter in Immediate mode raises `BadParameterMode` with raw digit 1; the write
parameters are parameter 3 of Add, Multiply, LessThan and Equals, and parameter 1 of Input. -/
def Obligations.ImmediateWriteParameterIsRefused : Prop :=
  ∀ (a b : Param) (v : Atom),
    decodeWord (encodeWord (.add a b ⟨.immediate, v⟩)) = .error (.badParameterMode 1) ∧
      decodeWord (encodeWord (.mul a b ⟨.immediate, v⟩)) = .error (.badParameterMode 1) ∧
        decodeWord (encodeWord (.lessThan a b ⟨.immediate, v⟩)) = .error (.badParameterMode 1) ∧
          decodeWord (encodeWord (.equals a b ⟨.immediate, v⟩)) = .error (.badParameterMode 1) ∧
            decodeWord (encodeWord (.input ⟨.immediate, v⟩)) = .error (.badParameterMode 1)

/-- spec/30_encoding.md R82 (the spec's own decision D18): what the pseudo-instructions `jmp`, `mov` and `nop` assemble
to, and that `nop` advances `ip` by 3, counts a tick and changes nothing else but the length of the tape over its own
words. -/
def Obligations.PseudoInstructionsAreCoreWords : Prop :=
  ∀ (n d v : Atom) (s : State),
    encode (.jmp ⟨.immediate, n⟩) = [1105, 1, n] ∧ encode (.mov ⟨.immediate, v⟩ ⟨.position, d⟩) = [1101, v, 0, d] ∧
      encode .nop = [1106, 1, 0] ∧
        (InAtom (s.ip.toInt + 3) → ∃ t, exec .nop s = .next t ∧ SameCells s t ∧ Committed s t (s.ip.toInt + 3) ∧
          t.rb = s.rb ∧ t.inq = s.inq ∧ t.outq = s.outq)

/-- spec/30_encoding.md R80 and R81 (the assembler is the spec's own decision D18): a program of instructions as they are
written assembles to their encodings one after another; a label and a comment between two such programs emit nothing, and
the label's value is the address of the next atom. -/
def Obligations.AssembledInstructionsAreTheirEncodings : Prop :=
  (∀ (is : List Instr), assemble (is.map Instr.toAsm) = some (is.flatMap encode)) ∧
    (∀ (is js : List Instr) (name text : String),
      assemble (is.map Instr.toAsm ++ .label name :: .comment text :: js.map Instr.toAsm) =
          some (is.flatMap encode ++ js.flatMap encode) ∧
        (labelTable 0 (is.map Instr.toAsm ++ .label name :: .comment text :: js.map Instr.toAsm)).lookup name =
          some (is.flatMap encode).length)

/-! ### Memory and operands -/

/-- spec/20_memory.md R42: the non-negative atoms are the legal addresses, a negative one is an error with kind Read for a
fetch or an operand read and Write for a result write, no access reaches another address than the one given, and an
effective address out of the atom range is an error too, never wrapped to a legal one. -/
def Obligations.NegativeAddressIsAlwaysAnError : Prop :=
  ∀ (a v w : Atom) (s : State),
    (a.toInt < 0 →
      memRead a s = .error (.outOfBoundsAddress a .read) ∧
      memWrite a v s = .error (.outOfBoundsAddress a .write) ∧
      resolveRead w ⟨.position, a⟩ s = .error (.outOfBoundsAddress a .read) ∧
      (∀ p : Atom, p.toInt + s.rb.toInt = a.toInt →
        resolveRead w ⟨.relative, p⟩ s = .error (.outOfBoundsAddress a .read)) ∧
      (s.ip = a → s.status.terminal = false → step s = .next { s with status := .error (.outOfBoundsAddress a .read) })) ∧
    (0 ≤ a.toInt → limitAdmits s.cfg a.toNat = true →
      (∃ t, memRead a s = .ok (s.mem.get a.toNat, t)) ∧
      (∃ t, memWrite a v s = .ok t ∧ t.mem.get a.toNat = v ∧ ∀ b, b ≠ a.toNat → t.mem.get b = s.mem.get b)) ∧
    (∀ p : Atom, ¬InAtom (p.toInt + s.rb.toInt) →
      (∃ k, resolveRead w ⟨.relative, p⟩ s = .error k) ∧ ∃ k, resolveWriteAddr w ⟨.relative, p⟩ s = .error k)

/-- spec/20_memory.md R43 to R46: reads and writes of a legal address. A read gives the cell, 0 past the end; growth sets
`len` to `a + 1` and changes no cell; a write then changes the one cell; past `MEM_LIMIT` (decision D3) both raise
`MemoryLimitExceeded` after the negative-address check. -/
def Obligations.ReadsAndWritesGrowTheTape : Prop :=
  ∀ (a v : Atom) (s : State), 0 ≤ a.toInt →
    (limitAdmits s.cfg a.toNat = true →
      (∃ t, memRead a s = .ok (s.mem.get a.toNat, t) ∧ t.mem.len = max s.mem.len (a.toNat + 1) ∧ SameCells s t ∧
        { t with mem := s.mem } = s) ∧
      (s.mem.len ≤ a.toNat → s.mem.get a.toNat = 0) ∧
      (∃ t, memWrite a v s = .ok t ∧ t.mem.len = max s.mem.len (a.toNat + 1) ∧
        StoresOneCell s t a.toNat v.toInt ∧ { t with mem := s.mem } = s)) ∧
    (∀ l, s.cfg.memLimit = some l → l ≤ a.toNat →
      memRead a s = .error (.memoryLimitExceeded a) ∧ memWrite a v s = .error (.memoryLimitExceeded a)) ∧
    (s.cfg.memLimit = none → limitAdmits s.cfg a.toNat = true)

/-- spec/20_memory.md R51, the table of addressing modes: the digits, what a read parameter yields, what a write parameter
yields, and that no mode modifies `rb`, `ip` or any cell. The sums are those that are atoms; the others are
`RelativeAddressOutOfRangeOverflows`. -/
def Obligations.AddressingModesResolveAsTabled : Prop :=
  ∀ (w p e x : Atom) (s t : State),
    modeOfDigit 0 = .ok .position ∧ modeOfDigit 1 = .ok .immediate ∧ modeOfDigit 2 = .ok .relative ∧
    resolveRead w ⟨.immediate, p⟩ s = .ok (p, s) ∧
    resolveRead w ⟨.position, p⟩ s = memRead p s ∧
    (e.toInt = p.toInt + s.rb.toInt → resolveRead w ⟨.relative, p⟩ s = memRead e s) ∧
    (memRead p s = .ok (x, t) → x = s.mem.get p.toNat) ∧
    resolveWriteAddr w ⟨.position, p⟩ s = .ok p ∧
    resolveWriteAddr w ⟨.immediate, p⟩ s = .error (.badParameterMode 1) ∧
    (e.toInt = p.toInt + s.rb.toInt → resolveWriteAddr w ⟨.relative, p⟩ s = .ok e) ∧
    (∀ q : Param, resolveRead w q s = .ok (x, t) →
      t.rb = s.rb ∧ t.ip = s.ip ∧ SameCells s t ∧ t.inq = s.inq ∧ t.outq = s.outq)

/-- spec/40_execution_cycle.md R100 for a relative address (the spec's own decision D2): a sum outside the atom range is
`ArithmeticOverflow` with the instruction word, for a read and for a write parameter. -/
def Obligations.RelativeAddressOutOfRangeOverflows : Prop :=
  ∀ (w p : Atom) (s : State), ¬InAtom (p.toInt + s.rb.toInt) →
    resolveRead w ⟨.relative, p⟩ s = .error (.arithmeticOverflow w) ∧
      resolveWriteAddr w ⟨.relative, p⟩ s = .error (.arithmeticOverflow w)

/-! ### The step -/

/-- A step runs the decoded instruction: when the core is not stopped and the cells at `ip` decode to `i`, with `ip` and
the address of `i`'s last word accessible, the step is `exec` of `i` in that same state. `exec` itself moves `ip`. -/
def Obligations.StepRunsTheDecodedInstruction : Prop :=
  ∀ (s : State) (i : Instr) (rest : List Atom),
    s.status.terminal = false → 0 ≤ s.ip.toInt → Accessible s (s.ip.toInt + i.params.length) →
      decode (s.mem.window s.ip.toNat 4) = .ok (i, rest) → step s = exec i s

/-- spec/40_execution_cycle.md R93 to R95 and R102 items 2 to 4 (check order: decision D7): the first failing check of
fetch, decode and parameter fetch is the error the step latches; without one, the step runs an instruction. -/
def Obligations.FetchAndDecodeErrorsLatchInOrder : Prop :=
  ∀ s : State, s.status.terminal = false →
    (∀ k, firstFailure (fetchChecks s) = some k → step s = .next { s with status := .error k }) ∧
      (firstFailure (fetchChecks s) = none → ∃ i, step s = exec i s ∧ fetchInstr s = .ok i)

/-- spec/40_execution_cycle.md R92 (that an error repeats is decision D10): under a latched terminal status a step changes
nothing and reports the same thing again. -/
def Obligations.TerminalStatusIgnoresSteps : Prop :=
  ∀ s : State,
    (s.status = .halted → step s = .next s ∧ hostStep s = (.halted s.ip, s)) ∧
      (∀ k, s.status = .error k → step s = .next s ∧ hostStep s = (.error k, s))

/-- spec/40_execution_cycle.md R105: the step is total. Every step, and every instruction in every state, answers a next
state: the model has no fault and refuses nothing. -/
def Obligations.EveryStepAnswersNext : Prop :=
  (∀ s : State, ∃ t, step s = .next t) ∧ (∀ (i : Instr) (s : State), ∃ t, exec i s = .next t)

/-- spec/40_execution_cycle.md R98 and R99 and spec/60_exceptions.md R189 (decision D9): a step that ends in an error, a
halt or a block changes nothing but the status latch. -/
def Obligations.UncommittedStepChangesOnlyStatus : Prop :=
  (∀ s t : State, step s = .next t → t.status ≠ .ready → t = { s with status := t.status }) ∧
    (∀ (i : Instr) (s t : State), exec i s = .next t → t.status ≠ .ready → t = { s with status := t.status })

/-- spec/40_execution_cycle.md R101, the table: where `ip` is after each instruction. `t.status` tells which row applies:
Ready after a committed step, and otherwise `ip` is unchanged. -/
def Obligations.InstructionPointerAdvancesAsTabled : Prop :=
  ∀ (s t : State) (a b c : Param),
    (∀ i ∈ [Instr.add a b c, .mul a b c, .lessThan a b c, .equals a b c], exec i s = .next t → t.status = .ready →
      t.ip.toInt = s.ip.toInt + 4) ∧
    (∀ i ∈ [Instr.input c, .output a, .adjustRelativeBase a], exec i s = .next t → t.status = .ready →
      t.ip.toInt = s.ip.toInt + 2) ∧
    (exec (.jumpIfTrue a b) s = .next t → t.status = .ready →
      t.ip.toInt = if operandValue s a ≠ 0 then operandValue s b else s.ip.toInt + 3) ∧
    (exec (.jumpIfFalse a b) s = .next t → t.status = .ready →
      t.ip.toInt = if operandValue s a = 0 then operandValue s b else s.ip.toInt + 3) ∧
    (exec .halt s = .next t → t.status = .halted ∧ t.ip = s.ip) ∧
    (∀ i : Instr, exec i s = .next t → t.status ≠ .ready → t.ip = s.ip) ∧
    (step s = .next t → t.status ≠ .ready → t.ip = s.ip)

/-- spec/10_state.md R30 (the spec's own decision D13): a step that commits counts one tick, any other none. -/
def Obligations.TickCountsCommittedSteps : Prop :=
  (∀ (i : Instr) (s t : State), exec i s = .next t → t.tick = if t.status = .ready then s.tick + 1 else s.tick) ∧
    (∀ s t : State, step s = .next t → t.tick = if t.status = .ready then s.tick + 1 else s.tick)

/-- spec/10_state.md R30: "No rule of the core reads it". Two states that differ in `tick` alone take steps to states that
differ in `tick` alone, by as much. -/
def Obligations.TickInfluencesNothing : Prop :=
  ∀ (s t : State) (n : Nat), step s = .next t → step { s with tick := s.tick + n } = .next { t with tick := t.tick + n }

/-- The frame of memory over a step: an instruction that stores nothing leaves every cell as it was, and one that stores
changes at most the cell at the effective address of its write parameter, computed in the state before the step. -/
def Obligations.StepTouchesOnlyTheWriteParametersCell : Prop :=
  ∀ (s t : State) (a b c : Param),
    (∀ i ∈ [Instr.output a, .jumpIfTrue a b, .jumpIfFalse a b, .adjustRelativeBase a, .halt],
      exec i s = .next t → SameCells s t) ∧
    (∀ i ∈ [Instr.add a b c, .mul a b c, .lessThan a b c, .equals a b c, .input c],
      exec i s = .next t → ∀ d : Nat, (d : Int) ≠ effectiveAddress s c → t.mem.get d = s.mem.get d) ∧
    (step s = .next t → t.status ≠ .ready → t.mem = s.mem)

/-- spec/10_state.md R23 and spec/45_relbase_halt.md R170: only AdjustRelativeBase writes `rb`, and the only host action
that sets it is a reset (or a step of such an instruction). -/
def Obligations.OnlyAdjustRelativeBaseWritesIt : Prop :=
  (∀ s t : State, step s = .next t → t.rb ≠ s.rb → ∃ a, fetchInstr s = .ok (.adjustRelativeBase a)) ∧
    (∀ (i : Instr) (s t : State), exec i s = .next t → t.rb ≠ s.rb → ∃ a, i = .adjustRelativeBase a) ∧
    (∀ (v : Atom) (s : State), ∀ act ∈ [HostAction.addInput v, .output, .takeOutput, .memory],
      (act.perform s).2.rb = s.rb ∧
        ∀ r : Atom, (act.perform { s with rb := r }).1 = (act.perform s).1)

/-- spec/10_state.md R26 and spec/20_memory.md R46: no host action but a reset shortens the tape, a step or a run of any
fuel among them, and growth shows in no cell: an address at or past the end reads 0, and after the action every address
that none of its steps wrote reads as before, whether the tape grew over it or not. -/
def Obligations.TapeNeverShrinksExceptByReset : Prop :=
  ∀ (s : State) (act : HostAction), (∀ p, act ≠ .reset p) →
    s.mem.len ≤ (act.perform s).2.mem.len ∧ (∀ a, s.mem.len ≤ a → s.mem.get a = 0) ∧
      ∀ a, a ∉ act.cellsWritten s → (act.perform s).2.mem.get a = s.mem.get a

/-! ### The instructions: where each completes, what it does, and what it leaves alone -/

/-- What Add, Multiply, LessThan and Equals share: with both operands readable, the destination writable, the result an
atom and room to advance, the instruction commits; it stores the result at the destination and changes nothing else but
`ip`, `tick`, the latch and the tape's length. Its operands are those of the state before it, so a destination that is
also a source, or one of the instruction's own words, changes nothing of this. -/
def Sys2Proof.Machine.ThreeOperandResult (mk : Param → Param → Param → Instr) (f : Int → Int → Int) : Prop :=
  ∀ (a b c : Param) (s : State),
    Readable s a → Readable s b → Writable s c → InAtom (f (operandValue s a) (operandValue s b)) →
      InAtom (s.ip.toInt + 4) →
        ∃ t, exec (mk a b c) s = .next t ∧
          StoresOneCell s t (effectiveAddress s c).toNat (f (operandValue s a) (operandValue s b)) ∧
          t.mem.len = max (max (max s.mem.len (s.ip.toInt + 4).toNat) (max (lengthRead s a) (lengthRead s b)))
            ((effectiveAddress s c).toNat + 1) ∧
          Committed s t (s.ip.toInt + 4) ∧ t.rb = s.rb ∧ t.inq = s.inq ∧ t.outq = s.outq

/-- spec/41_arithmetic.md R120: Add stores the exact sum. -/
def Obligations.AddStoresTheExactSum : Prop := ThreeOperandResult .add (fun x y => x + y)

/-- spec/41_arithmetic.md R121: Multiply stores the exact product. -/
def Obligations.MultiplyStoresTheExactProduct : Prop := ThreeOperandResult .mul (fun x y => x * y)

/-- spec/44_compare.md R160: LessThan stores 1 or 0 by a signed comparison, which cannot overflow. -/
def Obligations.LessThanStoresItsTruth : Prop := ThreeOperandResult .lessThan (fun x y => if x < y then 1 else 0)

/-- spec/44_compare.md R161: Equals stores 1 or 0 by equality of the full atom. -/
def Obligations.EqualsStoresItsTruth : Prop := ThreeOperandResult .equals (fun x y => if x = y then 1 else 0)

/-- spec/42_io.md R130: with input queued, Input takes the head of the queue and stores it. -/
def Obligations.InputStoresTheHeadOfTheQueue : Prop :=
  ∀ (c : Param) (v : Atom) (rest : List Atom) (s : State),
    s.inq = v :: rest → Writable s c → InAtom (s.ip.toInt + 2) →
      ∃ t, exec (.input c) s = .next t ∧ StoresOneCell s t (effectiveAddress s c).toNat v.toInt ∧
        t.mem.len = max (max s.mem.len (s.ip.toInt + 2).toNat) ((effectiveAddress s c).toNat + 1) ∧
        Committed s t (s.ip.toInt + 2) ∧ t.inq = rest ∧ t.rb = s.rb ∧ t.outq = s.outq

/-- spec/42_io.md R130 and spec/40_execution_cycle.md R99 (that the block comes before the check of a negative address is
decision D8): with no input queued, Input blocks whatever its address, and only the latch changes. -/
def Obligations.InputBlocksOnAnEmptyQueue : Prop :=
  ∀ (c : Param) (s : State), s.inq = [] → c.mode ≠ .immediate → InAtom (effectiveAddress s c) →
    exec (.input c) s = .next { s with status := .blockedOnInput }

/-- spec/42_io.md R131: Output appends its operand to the output queue. -/
def Obligations.OutputAppendsItsOperand : Prop :=
  ∀ (a : Param) (s : State), Readable s a → InAtom (s.ip.toInt + 2) →
    ∃ t v, exec (.output a) s = .next t ∧ v = BitVec.ofInt 64 (operandValue s a) ∧ v.toInt = operandValue s a ∧
      t.outq = s.outq ++ [v] ∧ SameCells s t ∧
      t.mem.len = max (max s.mem.len (s.ip.toInt + 2).toNat) (lengthRead s a) ∧ Committed s t (s.ip.toInt + 2) ∧
      t.inq = s.inq ∧ t.rb = s.rb

/-- What JumpIfTrue and JumpIfFalse share: with both operands readable, and room to advance if the jump is not taken, the
instruction commits; it moves `ip` to the target as it stands or past itself, and changes nothing else. -/
def Sys2Proof.Machine.JumpResult (mk : Param → Param → Instr) (taken : Int → Prop) : Prop :=
  ∀ (a t : Param) (s : State), Readable s a → Readable s t →
    (taken (operandValue s a) →
      ∃ u, exec (mk a t) s = .next u ∧ Committed s u (operandValue s t) ∧ SameCells s u ∧
        u.mem.len = max (max s.mem.len (s.ip.toInt + 3).toNat) (max (lengthRead s a) (lengthRead s t)) ∧
        u.rb = s.rb ∧ u.inq = s.inq ∧ u.outq = s.outq) ∧
    (¬taken (operandValue s a) → InAtom (s.ip.toInt + 3) →
      ∃ u, exec (mk a t) s = .next u ∧ Committed s u (s.ip.toInt + 3) ∧ SameCells s u ∧
        u.mem.len = max (max s.mem.len (s.ip.toInt + 3).toNat) (max (lengthRead s a) (lengthRead s t)) ∧
        u.rb = s.rb ∧ u.inq = s.inq ∧ u.outq = s.outq)

/-- spec/43_jumps.md R150: JumpIfTrue jumps on any nonzero predicate. -/
def Obligations.JumpIfTrueJumpsOnNonzero : Prop := JumpResult .jumpIfTrue (fun x => x ≠ 0)

/-- spec/43_jumps.md R151: JumpIfFalse jumps on a predicate of exactly 0. -/
def Obligations.JumpIfFalseJumpsOnZero : Prop := JumpResult .jumpIfFalse (fun x => x = 0)

/-- spec/45_relbase_halt.md R170: AdjustRelativeBase adds its operand, resolved against the old `rb`, to `rb`. -/
def Obligations.AdjustRelativeBaseAddsItsOperand : Prop :=
  ∀ (a : Param) (s : State), Readable s a → InAtom (s.rb.toInt + operandValue s a) → InAtom (s.ip.toInt + 2) →
    ∃ t, exec (.adjustRelativeBase a) s = .next t ∧ t.rb.toInt = s.rb.toInt + operandValue s a ∧ SameCells s t ∧
      t.mem.len = max (max s.mem.len (s.ip.toInt + 2).toNat) (lengthRead s a) ∧ Committed s t (s.ip.toInt + 2) ∧
      t.inq = s.inq ∧ t.outq = s.outq

/-- spec/45_relbase_halt.md R171 and spec/40_execution_cycle.md R99: Halt latches Halted and changes nothing else, and the
core stays there for any number of further steps (R172). -/
def Obligations.HaltLatchesHaltedForGood : Prop :=
  ∀ (s : State), exec .halt s = .next { s with status := .halted } ∧
    ∀ n, stateAfterSteps n { s with status := .halted } = { s with status := .halted }

/-! ### The instructions: which error each raises, and when -/

/-- What the three-operand instructions share: the first failing check, in the order of spec/40_execution_cycle.md R102
items 5 to 9 (decision D7), is the error latched, and only the latch changes. -/
def Sys2Proof.Machine.ThreeOperandErrors (mk : Param → Param → Param → Instr) (f : Int → Int → Int) : Prop :=
  ∀ (a b c : Param) (s : State) (k : ErrorKind), c.mode ≠ .immediate →
    firstFailure
      (readChecks (encodeWord (mk a b c)) s a ++ readChecks (encodeWord (mk a b c)) s b ++
        writeAddrChecks (encodeWord (mk a b c)) s c ++
        [rangeFailure (encodeWord (mk a b c)) (f (operandValue s a) (operandValue s b))] ++ writeChecks s c ++
        [rangeFailure (encodeWord (mk a b c)) (s.ip.toInt + 4)]) = some k →
      exec (mk a b c) s = .next { s with status := .error k }

/-- spec/41_arithmetic.md R120, R121 and spec/44_compare.md R160, R161, "Exceptions", in the order of R102 (D7). -/
def Obligations.ThreeOperandErrorsLatchInOrder : Prop :=
  ThreeOperandErrors .add (fun x y => x + y) ∧ ThreeOperandErrors .mul (fun x y => x * y) ∧
    ThreeOperandErrors .lessThan (fun x y => if x < y then 1 else 0) ∧
      ThreeOperandErrors .equals (fun x y => if x = y then 1 else 0)

/-- spec/42_io.md R130, "Exceptions", in the order of R102 (D7, D8): with input queued, the first failing check is
latched and the queue keeps its head; with none, only the write address's range check comes before the block. -/
def Obligations.InputErrorsLatchInOrder : Prop :=
  ∀ (c : Param) (s : State) (k : ErrorKind), c.mode ≠ .immediate →
    (s.inq ≠ [] →
      firstFailure (writeAddrChecks (encodeWord (.input c)) s c ++ writeChecks s c ++
        [rangeFailure (encodeWord (.input c)) (s.ip.toInt + 2)]) = some k →
          exec (.input c) s = .next { s with status := .error k }) ∧
    (s.inq = [] → firstFailure (writeAddrChecks (encodeWord (.input c)) s c) = some k →
      exec (.input c) s = .next { s with status := .error k })

/-- spec/43_jumps.md R150, R151, "Exceptions" (order: D7): both operands are resolved, and may fail, even when the jump is
not taken; the advance is checked only then, and a taken jump does not check its target (R152, D12). -/
def Obligations.JumpErrorsLatchInOrder : Prop :=
  ∀ (a t : Param) (s : State) (k : ErrorKind),
    (firstFailure (readChecks (encodeWord (.jumpIfTrue a t)) s a ++ readChecks (encodeWord (.jumpIfTrue a t)) s t ++
      (if operandValue s a ≠ 0 then [] else [rangeFailure (encodeWord (.jumpIfTrue a t)) (s.ip.toInt + 3)])) = some k →
        exec (.jumpIfTrue a t) s = .next { s with status := .error k }) ∧
    (firstFailure (readChecks (encodeWord (.jumpIfFalse a t)) s a ++ readChecks (encodeWord (.jumpIfFalse a t)) s t ++
      (if operandValue s a = 0 then [] else [rangeFailure (encodeWord (.jumpIfFalse a t)) (s.ip.toInt + 3)])) = some k →
        exec (.jumpIfFalse a t) s = .next { s with status := .error k })

/-- spec/42_io.md R131 and spec/45_relbase_halt.md R170, "Exceptions", in the order of R102 (D7). -/
def Obligations.OutputAndAdjustErrorsLatchInOrder : Prop :=
  ∀ (a : Param) (s : State) (k : ErrorKind),
    (firstFailure (readChecks (encodeWord (.output a)) s a ++
      [rangeFailure (encodeWord (.output a)) (s.ip.toInt + 2)]) = some k →
        exec (.output a) s = .next { s with status := .error k }) ∧
    (firstFailure (readChecks (encodeWord (.adjustRelativeBase a)) s a ++
      [rangeFailure (encodeWord (.adjustRelativeBase a)) (s.rb.toInt + operandValue s a)] ++
      [rangeFailure (encodeWord (.adjustRelativeBase a)) (s.ip.toInt + 2)]) = some k →
        exec (.adjustRelativeBase a) s = .next { s with status := .error k })

/-- spec/60_exceptions.md R181 to R187: what the fields of a newly latched error say, and that a core blocks only at an
Input with nothing queued. `UnknownOpcode`, `MalformedInstruction` and `ArithmeticOverflow` carry the word at `ip`. The
treatment of overflow and of the limit is the spec's own (D2, D3). -/
def Obligations.LatchedErrorNamesItsCause : Prop :=
  ∀ s t : State, s.status.terminal = false → step s = .next t →
    (∀ a kind, t.status = .error (.outOfBoundsAddress a kind) → a.toInt < 0) ∧
    (∀ g : Fin 10, t.status = .error (.badParameterMode g) → 2 < g.val ∨ g.val = 1) ∧
    (∀ w, t.status = .error (.unknownOpcode w) → w = s.mem.get s.ip.toNat) ∧
    (∀ w, t.status = .error (.malformedInstruction w) → w = s.mem.get s.ip.toNat) ∧
    (∀ w, t.status = .error (.arithmeticOverflow w) → w = s.mem.get s.ip.toNat) ∧
    (∀ a, t.status = .error (.memoryLimitExceeded a) → ∃ l, s.cfg.memLimit = some l ∧ l ≤ a.toNat) ∧
    (t.status = .blockedOnInput → s.inq = [] ∧ ∃ c, fetchInstr s = .ok (.input c)) ∧
    (t.status = .halted → fetchInstr s = .ok .halt)

/-- spec/43_jumps.md R152 (the spec's own decision D12): a taken jump to a negative target commits, and the next step
latches `OutOfBoundsAddress` with the target and kind Read, `ip` and `tick` as the jump left them; for JumpIfTrue with a
predicate that is not 0, and for JumpIfFalse with predicate 0. -/
def Obligations.NegativeJumpTargetFailsAtTheNextFetch : Prop :=
  ∀ (a t : Param) (s : State), Readable s a → Readable s t → operandValue s t < 0 →
    (operandValue s a ≠ 0 →
      ∃ u, exec (.jumpIfTrue a t) s = .next u ∧ u.status = .ready ∧ u.ip.toInt = operandValue s t ∧
        u.tick = s.tick + 1 ∧ step u = .next { u with status := .error (.outOfBoundsAddress u.ip .read) }) ∧
    (operandValue s a = 0 →
      ∃ u, exec (.jumpIfFalse a t) s = .next u ∧ u.status = .ready ∧ u.ip.toInt = operandValue s t ∧
        u.tick = s.tick + 1 ∧ step u = .next { u with status := .error (.outOfBoundsAddress u.ip .read) })

/-- spec/20_memory.md R57: a write committed by one step is seen by the fetch of the next, for every instruction that
writes. The cell written holds the value stored. If it is the one where `ip` then stands, it is the next instruction word:
the next step latches the decoder's error if the word does not decode, and halts if it is 99. And if the cells at `ip`
decode to an instruction of which the cell written is the word or a parameter word, the next step runs that instruction,
which has the value stored in that place of its encoding. -/
def Obligations.StoredWordIsTheNextInstruction : Prop :=
  ∀ (i : Instr) (c : Param) (s t : State),
    writeParam? i = some c → exec i s = .next t → t.status = .ready →
      ∃ w : Atom, storedValue s i = some w.toInt ∧ t.mem.get (effectiveAddress s c).toNat = w ∧
        (effectiveAddress s c = t.ip.toInt →
          (∀ k, decodeWord w = .error k → step t = .next { t with status := .error k }) ∧
            (w = 99 → step t = .next { t with status := .halted })) ∧
        (∀ (n : Nat) (j : Instr) (rest : List Atom), effectiveAddress s c = t.ip.toInt + n → n < (encode j).length →
          0 ≤ t.ip.toInt → Accessible t (t.ip.toInt + j.params.length) →
            decode (t.mem.window t.ip.toNat 4) = .ok (j, rest) → step t = exec j t ∧ (encode j)[n]? = some w)

/-! ### Invariants -/

/-- The tape invariant is kept by every step, from every state that meets it. -/
def Obligations.StepPreservesTheTapeInvariant : Prop := ∀ s t : State, s.Inv → step s = .next t → t.Inv

/-- It is kept by every host action that gives the core no program it cannot hold (spec/70_reset_and_hazards.md R213), and
construction establishes it. -/
def Obligations.HostActionsPreserveTheTapeInvariant : Prop :=
  (∀ (s : State) (act : HostAction), s.Inv → act.fits s.cfg → (act.perform s).2.Inv) ∧
    (∀ (cfg : Config) (p : List Atom), programFits cfg p → (fromProgram cfg p).Inv)

/-- Every step keeps the latch honest: after it, a status other than Ready is the one that executing the instruction at
`ip` again would latch. -/
def Obligations.StepKeepsTheLatchHonest : Prop := ∀ s t : State, s.LatchAgrees → step s = .next t → t.LatchAgrees

/-- Every host action, a step or a run among them, leaves a blocked core standing at an Input instruction and a halted one
at a Halt (spec/40_execution_cycle.md R103, R112). -/
def Obligations.StoppedCoreStandsAtItsInstruction : Prop :=
  ∀ (s : State) (act : HostAction), s.StandsWhereItStopped → (act.perform s).2.StandsWhereItStopped

/-- spec/10_state.md R34: nothing writes the parameters: no instruction, no step, no host action. -/
def Obligations.ParametersNeverChange : Prop :=
  (∀ (i : Instr) (s t : State), exec i s = .next t → t.cfg = s.cfg) ∧
    (∀ (acts : List HostAction) (s : State), (performAll acts s).cfg = s.cfg)

/-- spec/00_scope.md R9: `OUTPUT_SUSPENDS` changes what a step returns and nothing of the state: "In both settings the
value is appended to the output queue". -/
def Obligations.OutputSuspendsChangesNoState : Prop :=
  ∀ (s t : State) (b : Bool), step s = .next t →
    step { s with cfg := { s.cfg with outputSuspends := b } } =
      .next { t with cfg := { t.cfg with outputSuspends := b } }

/-! ### Queues and the host interface -/

/-- spec/10_state.md R27: `add_input` appends to the tail of `inq`, a committed Input removes its head, and nothing else
reads or writes it (a reset empties it: R32). -/
def Obligations.InputQueueIsFirstInFirstOut : Prop :=
  (∀ (v : Atom) (s : State), ((HostAction.addInput v).perform s).2.inq = s.inq ++ [v]) ∧
    (∀ s t : State, step s = .next t → t.inq = s.inq ∨
      ∃ c v, fetchInstr s = .ok (.input c) ∧ t.status = .ready ∧ s.inq = v :: t.inq) ∧
    (∀ (c : Param) (s t : State), exec (.input c) s = .next t → t.status = .ready → ∃ v, s.inq = v :: t.inq) ∧
    (∀ (i : Instr) (s t : State), exec i s = .next t → (∀ c, i ≠ .input c) → t.inq = s.inq) ∧
    (∀ (i : Instr) (s t : State) (q : List Atom), exec i s = .next t → (∀ c, i ≠ .input c) →
      exec i { s with inq := q } = .next { t with inq := q }) ∧
    (∀ (s : State) (q : List Atom), ∀ act ∈ [HostAction.output, .takeOutput, .memory],
      (act.perform s).2.inq = s.inq ∧ (act.perform { s with inq := q }).1 = (act.perform s).1)

/-- spec/10_state.md R28: Output appends to the tail of `outq`, the host reads it with `output()` or drains it with
`take_output()`, and no instruction reads it: what a step does to the rest of the state does not depend on it. -/
def Obligations.OutputQueueIsWriteOnlyToTheProgram : Prop :=
  (∀ (a : Param) (s t : State), exec (.output a) s = .next t → t.status = .ready →
    t.outq = s.outq ++ [BitVec.ofInt 64 (operandValue s a)]) ∧
    (∀ (i : Instr) (s t : State), exec i s = .next t → (∀ a, i ≠ .output a) → t.outq = s.outq) ∧
    (∀ s : State, HostAction.output.perform s = (.atoms s.outq, s) ∧
      HostAction.takeOutput.perform s = (.atoms s.outq, { s with outq := [] })) ∧
    (∀ (s t : State) (q : List Atom), step s = .next t →
      ∃ made, t.outq = s.outq ++ made ∧ step { s with outq := q } = .next { t with outq := q ++ made })

/-- spec/42_io.md R135 (an inference the spec marks as derived): over any sequence of host actions without a reset, the
values the Input steps consumed, followed by what is still queued, are what was queued at the start, followed by what
`add_input` gave; and what `take_output` returned, followed by the final `outq`, is what was in `outq` at the start,
followed by the values of the committed Output steps. No value is dropped, repeated or reordered. -/
def Obligations.QueuesKeepOrderAcrossHostActions : Prop :=
  ∀ (acts : List HostAction) (s : State), (∀ p, HostAction.reset p ∉ acts) →
    s.inq ++ inputsGiven acts = inputsConsumed acts s ++ (performAll acts s).inq ∧
      outputsTaken acts s ++ (performAll acts s).outq = s.outq ++ outputsProduced acts s

/-- spec/40_execution_cycle.md R112: what the host cannot do. No action other than a reset, a step or a run writes `M`,
`ip`, `rb`, `tick` or `status`, and none of those removes queued input; a step or a run is the core's own steps one after
another, so it skips no instruction; and it moves no core past an error or a Halt. -/
def Obligations.HostCannotReachTheProgramState : Prop :=
  (∀ (v : Atom) (s : State), ∀ act ∈ [HostAction.addInput v, .output, .takeOutput, .memory],
    (act.perform s).2.mem = s.mem ∧ (act.perform s).2.ip = s.ip ∧ (act.perform s).2.rb = s.rb ∧
      (act.perform s).2.tick = s.tick ∧ (act.perform s).2.status = s.status ∧ s.inq <+: (act.perform s).2.inq) ∧
    (∀ (n : Nat) (s : State), (∀ t, step s = .next t → (HostAction.step.perform s).2 = t) ∧
      ∃ k, k ≤ n ∧ ((HostAction.run n).perform s).2 = stateAfterSteps k s) ∧
    (∀ (n : Nat) (s : State), s.status.terminal = true →
      (HostAction.step.perform s).2 = s ∧ ((HostAction.run n).perform s).2 = s)

/-- spec/20_memory.md R58: `memory()` returns the cells `M[0] .. M[len - 1]` in order and has no effect. -/
def Obligations.MemoryViewListsTheTape : Prop :=
  ∀ s : State, HostAction.memory.perform s = (.atoms (memoryView s), s) ∧ (memoryView s).length = s.mem.len ∧
    ∀ a (h : a < (memoryView s).length), (memoryView s)[a] = s.mem.get a

/-- spec/40_execution_cycle.md R91: which result a step returns. Under `OUTPUT_SUSPENDS` a committed Output returns the
value it appended; every other committed step returns Ready; a halt and a block carry `ip`; an error its kind. -/
def Obligations.StepResultReportsTheStep : Prop :=
  ∀ s t : State, step s = .next t →
    (hostStep s).2 = t ∧
    (t.status = .halted → (hostStep s).1 = .halted s.ip) ∧
    (t.status = .blockedOnInput → (hostStep s).1 = .blockedOnInput s.ip) ∧
    (∀ k, t.status = .error k → (hostStep s).1 = .error k) ∧
    (t.status = .ready → s.cfg.outputSuspends = false → (hostStep s).1 = .ready) ∧
    (t.status = .ready → (∀ a, fetchInstr s ≠ .ok (.output a)) → (hostStep s).1 = .ready) ∧
    (∀ a, t.status = .ready → s.cfg.outputSuspends = true → fetchInstr s = .ok (.output a) →
      ∃ v, t.outq = s.outq ++ [v] ∧ (hostStep s).1 = .output v)

/-- spec/40_execution_cycle.md R106 (fuel: the spec's own decision D26): `run` stops with result `r` exactly at the first
step whose result is not Ready, and runs out of fuel exactly if there is none within it. -/
def Obligations.RunStopsAtTheFirstResultNotReady : Prop :=
  ∀ (n : Nat) (s t : State),
    (∀ r, run n s = (some r, t) ↔
      ∃ k, k < n ∧ (∀ j, j < k → (hostStep (stateAfterSteps j s)).1 = .ready) ∧
        (hostStep (stateAfterSteps k s)).1 = r ∧ r ≠ .ready ∧ t = stateAfterSteps (k + 1) s) ∧
    (run n s = (none, t) ↔
      (∀ j, j < n → (hostStep (stateAfterSteps j s)).1 = .ready) ∧ t = stateAfterSteps n s)

/-- spec/40_execution_cycle.md R103: a step of a blocked core is a step of the same core made Ready, so once input is
queued the Input instruction executes. -/
def Obligations.BlockedStepRunsAsReadyStep : Prop :=
  ∀ (s : State), s.status = .blockedOnInput → step s = step { s with status := .ready }
end

