-- ==== Sys2Proof/Laws/Word.lean ====
section
/-! SUPPORT. The laws of checked narrowing: an exact integer and the atom it makes. -/

namespace Sys2Proof

theorem inAtom_toInt (a : Atom) : InAtom a.toInt := by
  have := a.isLt
  rw [BitVec.toInt_eq_toNat_cond]
  constructor <;> split <;> omega

theorem toInt_ofInt_of_inAtom {v : Int} (h : InAtom v) : (BitVec.ofInt 64 v).toInt = v := by
  obtain ⟨h1, h2⟩ := h
  rw [BitVec.toInt_ofInt]
  exact Int.bmod_eq_of_le (by omega) (by omega)

/-- Checked narrowing gives the atom whose value is the exact integer, and only that one. -/
theorem Atom.ofInt?_eq_some {v : Int} {a : Atom} : Atom.ofInt? v = some a ↔ a.toInt = v := by
  unfold Atom.ofInt?
  constructor
  · intro h
    split at h
    · next hv =>
      obtain rfl := Option.some.inj h
      exact toInt_ofInt_of_inAtom hv
    · cases h
  · rintro rfl
    rw [if_pos (inAtom_toInt a), BitVec.ofInt_toInt]

/-- Checked narrowing fails exactly outside the atom range. -/
theorem Atom.ofInt?_eq_none {v : Int} : Atom.ofInt? v = none ↔ ¬InAtom v := by
  unfold Atom.ofInt?
  split <;> simp_all

/-- The natural number of a non-negative atom. -/
theorem toInt_toNat_of_nonneg {a : Atom} (h : 0 ≤ a.toInt) : a.toInt.toNat = a.toNat := by
  have := a.isLt
  rw [BitVec.toInt_eq_toNat_cond] at h ⊢
  split at h <;> split <;> omega

theorem toInt_eq_toNat_of_nonneg {a : Atom} (h : 0 ≤ a.toInt) : a.toInt = (a.toNat : Int) := by
  rw [← toInt_toNat_of_nonneg h, Int.toNat_of_nonneg h]

end Sys2Proof
end

