-- ==== Sys2Proof/Laws/Assembler.lean ====
section
/-! SUPPORT. The assembler reads back what is written. -/

namespace Sys2Proof

/-- The written form of a parameter stands for that parameter. -/
@[simp] theorem param?_toAsm (table : List (String × Nat)) (p : Param) : p.toAsm.param? table = some p := by
  obtain ⟨m, r⟩ := p
  unfold Param.toAsm
  split
  · next h =>
    obtain ⟨h1, -, h3⟩ := h
    simp only at h1 h3
    subst h1
    have hr : Atom.ofInt? r.toInt = some r := Atom.ofInt?_eq_some.2 rfl
    simp [AsmOperand.param?, AsmValue.atom?, toInt_ofInt_of_inAtom h3, hr]
  · simp [AsmOperand.param?, AsmValue.atom?]

@[simp] theorem allOf_map_some {α : Type} (xs : List α) : allOf (xs.map some) = some xs := by
  induction xs with
  | nil => rfl
  | cons x xs ih => simp [allOf, ih]

theorem allOf_append {α : Type} (xs ys : List (Option α)) :
    allOf (xs ++ ys) = (allOf xs).bind fun vs => (allOf ys).map (vs ++ ·) := by
  induction xs with
  | nil => cases h : allOf ys <;> simp [allOf, h]
  | cons x xs ih =>
    cases x with
    | none => rfl
    | some x => simp [allOf, ih]; cases allOf xs <;> cases allOf ys <;> simp

/-- An instruction's line is as long as its encoding (spec/30_encoding.md R60). -/
@[simp] theorem size_toAsm (i : Instr) : i.toAsm.size = (encode i).length := by
  simp [AsmLine.size, Instr.toAsm, AsmLine.expand, encode]; omega

end Sys2Proof
end

