-- ==== Sys2Proof/Laws/Flags.lean ====
section
/-! SUPPORT. The jump tests in terms of the predicate's integer value. -/

namespace Sys2Proof.Machine

theorem atom_eq_zero_iff (x : Atom) : x = 0 ↔ x.toInt = 0 := by
  rw [← BitVec.toInt_inj]; rfl

theorem jumpsOnTrue_iff (x : Atom) : jumpsOnTrue x = true ↔ x.toInt ≠ 0 := by
  simp only [jumpsOnTrue, ne_eq, decide_eq_true_eq, atom_eq_zero_iff]

theorem jumpsOnFalse_iff (x : Atom) : jumpsOnFalse x = true ↔ x.toInt = 0 := by
  simp only [jumpsOnFalse, decide_eq_true_eq, atom_eq_zero_iff]

end Sys2Proof.Machine
end

