-- ==== Sys2Proof/Laws/Memory.lean ====
section
/-! SUPPORT. The laws of the memory tape: read after write, growth, and that every operation keeps the canonical form. -/

namespace Sys2Proof.Machine

/-! ### Cells -/

theorem lookupCell_insertCell (a : Nat) (v : Atom) (cells : List (Nat × Atom)) (h : ∀ c ∈ cells, c.1 ≠ a) (b : Nat) :
    lookupCell b (insertCell a v cells) = if b = a then v else lookupCell b cells := by
  induction cells with
  | nil =>
    by_cases hb : b = a
    · simp [insertCell, lookupCell, hb]
    · simp [insertCell, lookupCell, hb, Ne.symm hb]
  | cons c rest ih =>
    obtain ⟨e, u⟩ := c
    have he : e ≠ a := h (e, u) (by simp)
    have ih := ih fun c hc => h c (by simp [hc])
    unfold insertCell
    split
    · by_cases hb : b = a
      · simp [lookupCell, hb]
      · simp [lookupCell, hb, Ne.symm hb]
    · by_cases hb : b = a
      · subst hb; simp [lookupCell, he, ih]
      · simp only [lookupCell, ih, if_neg hb]

theorem lookupCell_filter (p : Nat → Bool) (a : Nat) (cells : List (Nat × Atom)) :
    lookupCell a (cells.filter fun c => p c.1) = if p a then lookupCell a cells else 0 := by
  induction cells with
  | nil => simp [lookupCell]
  | cons c rest ih =>
    obtain ⟨e, u⟩ := c
    by_cases hp : p e
    · rw [List.filter_cons_of_pos (by simpa using hp)]
      by_cases hb : e = a
      · subst hb; simp [lookupCell, hp]
      · simp [lookupCell, hb, ih]
    · rw [List.filter_cons_of_neg (by simpa using hp), ih]
      by_cases hb : e = a
      · subst hb; simp [hp]
      · simp [lookupCell, hb]

theorem mem_insertCell (a : Nat) (v : Atom) (cells : List (Nat × Atom)) (c : Nat × Atom) :
    c ∈ insertCell a v cells ↔ c = (a, v) ∨ c ∈ cells := by
  induction cells with
  | nil => simp [insertCell]
  | cons d rest ih =>
    obtain ⟨e, u⟩ := d
    unfold insertCell
    split
    · simp
    · simp [ih, or_left_comm]

theorem insertCell_sorted (a : Nat) (v : Atom) (cells : List (Nat × Atom)) (h : ∀ c ∈ cells, c.1 ≠ a)
    (hs : cells.Pairwise fun x y => x.1 < y.1) : (insertCell a v cells).Pairwise fun x y => x.1 < y.1 := by
  induction cells with
  | nil => simp [insertCell]
  | cons d rest ih =>
    obtain ⟨e, u⟩ := d
    have he : e ≠ a := h (e, u) (by simp)
    obtain ⟨h1, h2⟩ := List.pairwise_cons.1 hs
    unfold insertCell
    split
    · next hlt =>
      refine List.pairwise_cons.2 ⟨fun c hc => ?_, hs⟩
      rcases List.mem_cons.1 hc with rfl | hc
      · exact hlt
      · exact Nat.lt_trans hlt (h1 c hc)
    · next hlt =>
      refine List.pairwise_cons.2 ⟨fun c hc => ?_, ih (fun c hc => h c (by simp [hc])) h2⟩
      rcases (mem_insertCell a v rest c).1 hc with rfl | hc
      · show e < a
        omega
      · exact h1 c hc

/-! ### The tape -/

theorem Memory.len_growTo (m : Memory) (n : Nat) : (m.growTo n).len = max m.len n := by
  unfold Memory.growTo
  split <;> simp <;> omega

/-- Growth changes what no address reads (spec/20_memory.md R46). -/
theorem Memory.get_growTo (m : Memory) (n a : Nat) : (m.growTo n).get a = m.get a := by
  unfold Memory.growTo
  split
  · rfl
  · next h =>
    simp only [Memory.get]
    rw [lookupCell_filter (fun b => decide (b < m.len))]
    by_cases ha : a < m.len
    · have : a < n := by omega
      simp [ha, this]
    · simp [ha]

theorem Memory.len_set (m : Memory) (a : Nat) (v : Atom) : (m.set a v).len = m.len := rfl

/-- A cell within the tape reads what was stored, and every other cell as before. -/
theorem Memory.get_set (m : Memory) {a : Nat} (v : Atom) (h : a < m.len) (b : Nat) :
    (m.set a v).get b = if b = a then v else m.get b := by
  have hf := lookupCell_filter (fun c => decide (c ≠ a)) b m.cells
  simp only [Memory.set, Memory.get]
  by_cases hv : v = 0
  · subst hv
    rw [if_pos rfl, hf]
    by_cases hb : b = a
    · simp [hb]
    · simp [hb]
  · rw [if_neg hv, lookupCell_insertCell _ _ _ (by simp), hf]
    by_cases hb : b = a
    · simp [hb, h]
    · simp [hb]

theorem Memory.len_store (m : Memory) (a : Nat) (v : Atom) : (m.store a v).len = max m.len (a + 1) := by
  rw [Memory.store, Memory.len_set, Memory.len_growTo]

/-- Read after write: the stored address reads the value, every other address reads as before. -/
theorem Memory.get_store (m : Memory) (a : Nat) (v : Atom) (b : Nat) :
    (m.store a v).get b = if b = a then v else m.get b := by
  rw [Memory.store, Memory.get_set _ _ (by rw [Memory.len_growTo]; omega), Memory.get_growTo]

theorem Memory.get_of_len_le (m : Memory) {a : Nat} (h : m.len ≤ a) : m.get a = 0 := if_neg (Nat.not_lt.2 h)

theorem Memory.growTo_growTo (m : Memory) (i j : Nat) : (m.growTo i).growTo j = m.growTo (max i j) := by
  by_cases hi : i ≤ m.len
  · by_cases hj : j ≤ m.len
    · simp [Memory.growTo, hi, hj]
    · have e : max i j = j := by omega
      simp [Memory.growTo, hi, hj, e]
  · by_cases hj : j ≤ i
    · have e : max i j = i := by omega
      simp [Memory.growTo, hi, hj]
    · have e : max i j = j := by omega
      have hjm : ¬ j ≤ m.len := by omega
      simp only [Memory.growTo, hi, hj, hjm, e, if_false, List.filter_filter]
      congr 1
      apply List.filter_congr
      intro c _
      simp
      omega

/-! ### The canonical form is kept -/

theorem Memory.wf_growTo {m : Memory} (h : m.wf) (n : Nat) : (m.growTo n).wf := by
  unfold Memory.growTo
  split
  · exact h
  · next hn =>
    refine ⟨h.1.filter _, fun c hc => ?_⟩
    obtain ⟨hc, -⟩ := List.mem_filter.1 hc
    exact ⟨(h.2 c hc).1, Nat.lt_trans (h.2 c hc).2 (Nat.lt_of_not_le hn)⟩

theorem Memory.wf_set {m : Memory} (h : m.wf) {a : Nat} (ha : a < m.len) (v : Atom) : (m.set a v).wf := by
  have hf : (m.cells.filter fun c => c.1 ≠ a).Pairwise fun x y => x.1 < y.1 := h.1.filter _
  have hm : ∀ c ∈ m.cells.filter (fun c => c.1 ≠ a), c.2 ≠ 0 ∧ c.1 < m.len :=
    fun c hc => h.2 c (List.mem_filter.1 hc).1
  unfold Memory.set
  by_cases hv : v = 0
  · simp only [hv, if_true]
    exact ⟨hf, hm⟩
  · simp only [hv, if_false]
    refine ⟨insertCell_sorted a v _ (by simp) hf, fun c hc => ?_⟩
    rcases (mem_insertCell a v _ c).1 hc with rfl | hc
    · exact ⟨hv, ha⟩
    · exact hm c hc

theorem Memory.wf_store {m : Memory} (h : m.wf) (a : Nat) (v : Atom) : (m.store a v).wf :=
  Memory.wf_set (Memory.wf_growTo h _) (by rw [Memory.len_growTo]; omega) v

theorem Memory.wf_storeList {m : Memory} (h : m.wf) (a : Nat) (vs : List Atom) : (m.storeList a vs).wf := by
  induction vs generalizing m a with
  | nil => exact h
  | cons v vs ih => exact ih (Memory.wf_store h a v) (a + 1)

theorem Memory.wf_empty : ({ cells := [], len := 0 } : Memory).wf := ⟨List.Pairwise.nil, by simp⟩

theorem State.reset_wf : State.reset.mem.wf := Memory.wf_empty

/-! ### Consecutive cells -/

theorem Memory.len_storeList (m : Memory) (a : Nat) (vs : List Atom) :
    (m.storeList a vs).len = if vs = [] then m.len else max m.len (a + vs.length) := by
  induction vs generalizing m a with
  | nil => rfl
  | cons v vs ih =>
    rw [Memory.storeList, ih, Memory.len_store]
    by_cases hv : vs = []
    · simp [hv]
    · simp [hv]; omega

theorem Memory.get_storeList (m : Memory) (a : Nat) (vs : List Atom) (b : Nat) :
    (m.storeList a vs).get b = if a ≤ b ∧ b < a + vs.length then vs.getD (b - a) 0 else m.get b := by
  induction vs generalizing m a with
  | nil => simp [Memory.storeList]
  | cons v vs ih =>
    rw [Memory.storeList, ih, Memory.get_store]
    by_cases hb : b = a
    · subst hb; simp
    · by_cases h : a + 1 ≤ b ∧ b < a + 1 + vs.length
      · have h' : a ≤ b ∧ b < a + (v :: vs).length := by simp; omega
        have e : b - a = (b - (a + 1)) + 1 := by omega
        rw [if_pos h, if_pos h', e]; simp
      · have h' : ¬(a ≤ b ∧ b < a + (v :: vs).length) := by simp; omega
        rw [if_neg h, if_neg h', if_neg hb]

end Sys2Proof.Machine
end

