-- ==== Sys2Proof/Laws/State.lean ====
section
/-! SUPPORT. One lemma per field of `State` per named update, so that no proof unfolds a record update. -/

namespace Sys2Proof.Machine

variable (s : State)

@[simp] theorem State.setMem_mem (m : Memory) : (s.setMem m).mem = m := rfl
@[simp] theorem State.setMem_ip (m : Memory) : (s.setMem m).ip = s.ip := rfl
@[simp] theorem State.setMem_rb (m : Memory) : (s.setMem m).rb = s.rb := rfl
@[simp] theorem State.setMem_inq (m : Memory) : (s.setMem m).inq = s.inq := rfl
@[simp] theorem State.setMem_outq (m : Memory) : (s.setMem m).outq = s.outq := rfl
@[simp] theorem State.setMem_status (m : Memory) : (s.setMem m).status = s.status := rfl
@[simp] theorem State.setMem_tick (m : Memory) : (s.setMem m).tick = s.tick := rfl
@[simp] theorem State.setMem_cfg (m : Memory) : (s.setMem m).cfg = s.cfg := rfl

@[simp] theorem State.setRb_mem (v : Atom) : (s.setRb v).mem = s.mem := rfl
@[simp] theorem State.setRb_ip (v : Atom) : (s.setRb v).ip = s.ip := rfl
@[simp] theorem State.setRb_rb (v : Atom) : (s.setRb v).rb = v := rfl
@[simp] theorem State.setRb_inq (v : Atom) : (s.setRb v).inq = s.inq := rfl
@[simp] theorem State.setRb_outq (v : Atom) : (s.setRb v).outq = s.outq := rfl
@[simp] theorem State.setRb_status (v : Atom) : (s.setRb v).status = s.status := rfl
@[simp] theorem State.setRb_tick (v : Atom) : (s.setRb v).tick = s.tick := rfl
@[simp] theorem State.setRb_cfg (v : Atom) : (s.setRb v).cfg = s.cfg := rfl

@[simp] theorem State.pushOutput_mem (v : Atom) : (s.pushOutput v).mem = s.mem := rfl
@[simp] theorem State.pushOutput_ip (v : Atom) : (s.pushOutput v).ip = s.ip := rfl
@[simp] theorem State.pushOutput_rb (v : Atom) : (s.pushOutput v).rb = s.rb := rfl
@[simp] theorem State.pushOutput_inq (v : Atom) : (s.pushOutput v).inq = s.inq := rfl
@[simp] theorem State.pushOutput_outq (v : Atom) : (s.pushOutput v).outq = s.outq ++ [v] := rfl
@[simp] theorem State.pushOutput_status (v : Atom) : (s.pushOutput v).status = s.status := rfl
@[simp] theorem State.pushOutput_tick (v : Atom) : (s.pushOutput v).tick = s.tick := rfl
@[simp] theorem State.pushOutput_cfg (v : Atom) : (s.pushOutput v).cfg = s.cfg := rfl

@[simp] theorem State.pushInput_mem (v : Atom) : (s.pushInput v).mem = s.mem := rfl
@[simp] theorem State.pushInput_ip (v : Atom) : (s.pushInput v).ip = s.ip := rfl
@[simp] theorem State.pushInput_rb (v : Atom) : (s.pushInput v).rb = s.rb := rfl
@[simp] theorem State.pushInput_inq (v : Atom) : (s.pushInput v).inq = s.inq ++ [v] := rfl
@[simp] theorem State.pushInput_outq (v : Atom) : (s.pushInput v).outq = s.outq := rfl
@[simp] theorem State.pushInput_status (v : Atom) : (s.pushInput v).status = s.status := rfl
@[simp] theorem State.pushInput_tick (v : Atom) : (s.pushInput v).tick = s.tick := rfl
@[simp] theorem State.pushInput_cfg (v : Atom) : (s.pushInput v).cfg = s.cfg := rfl

@[simp] theorem State.raise_mem (k : ErrorKind) : (s.raise k).mem = s.mem := rfl
@[simp] theorem State.raise_ip (k : ErrorKind) : (s.raise k).ip = s.ip := rfl
@[simp] theorem State.raise_rb (k : ErrorKind) : (s.raise k).rb = s.rb := rfl
@[simp] theorem State.raise_inq (k : ErrorKind) : (s.raise k).inq = s.inq := rfl
@[simp] theorem State.raise_outq (k : ErrorKind) : (s.raise k).outq = s.outq := rfl
@[simp] theorem State.raise_status (k : ErrorKind) : (s.raise k).status = .error k := rfl
@[simp] theorem State.raise_tick (k : ErrorKind) : (s.raise k).tick = s.tick := rfl
@[simp] theorem State.raise_cfg (k : ErrorKind) : (s.raise k).cfg = s.cfg := rfl

@[simp] theorem State.stopHalted_mem : (s.stopHalted).mem = s.mem := rfl
@[simp] theorem State.stopHalted_ip : (s.stopHalted).ip = s.ip := rfl
@[simp] theorem State.stopHalted_rb : (s.stopHalted).rb = s.rb := rfl
@[simp] theorem State.stopHalted_inq : (s.stopHalted).inq = s.inq := rfl
@[simp] theorem State.stopHalted_outq : (s.stopHalted).outq = s.outq := rfl
@[simp] theorem State.stopHalted_status : (s.stopHalted).status = .halted := rfl
@[simp] theorem State.stopHalted_tick : (s.stopHalted).tick = s.tick := rfl
@[simp] theorem State.stopHalted_cfg : (s.stopHalted).cfg = s.cfg := rfl

@[simp] theorem State.suspend_mem : (s.suspend).mem = s.mem := rfl
@[simp] theorem State.suspend_ip : (s.suspend).ip = s.ip := rfl
@[simp] theorem State.suspend_rb : (s.suspend).rb = s.rb := rfl
@[simp] theorem State.suspend_inq : (s.suspend).inq = s.inq := rfl
@[simp] theorem State.suspend_outq : (s.suspend).outq = s.outq := rfl
@[simp] theorem State.suspend_status : (s.suspend).status = .blockedOnInput := rfl
@[simp] theorem State.suspend_tick : (s.suspend).tick = s.tick := rfl
@[simp] theorem State.suspend_cfg : (s.suspend).cfg = s.cfg := rfl

@[simp] theorem State.commit_mem (c : State) (n : Atom) : (s.commit c n).mem = c.mem := rfl
@[simp] theorem State.commit_ip (c : State) (n : Atom) : (s.commit c n).ip = n := rfl
@[simp] theorem State.commit_rb (c : State) (n : Atom) : (s.commit c n).rb = c.rb := rfl
@[simp] theorem State.commit_inq (c : State) (n : Atom) : (s.commit c n).inq = c.inq := rfl
@[simp] theorem State.commit_outq (c : State) (n : Atom) : (s.commit c n).outq = c.outq := rfl
@[simp] theorem State.commit_status (c : State) (n : Atom) : (s.commit c n).status = .ready := rfl
@[simp] theorem State.commit_tick (c : State) (n : Atom) : (s.commit c n).tick = s.tick + 1 := rfl
@[simp] theorem State.commit_cfg (c : State) (n : Atom) : (s.commit c n).cfg = s.cfg := rfl

@[simp] theorem State.fetched_mem (n : Nat) : (s.fetched n).mem = s.mem.growTo (s.ip.toInt + n).toNat := rfl
@[simp] theorem State.fetched_ip (n : Nat) : (s.fetched n).ip = s.ip := rfl
@[simp] theorem State.fetched_rb (n : Nat) : (s.fetched n).rb = s.rb := rfl
@[simp] theorem State.fetched_inq (n : Nat) : (s.fetched n).inq = s.inq := rfl
@[simp] theorem State.fetched_outq (n : Nat) : (s.fetched n).outq = s.outq := rfl
@[simp] theorem State.fetched_status (n : Nat) : (s.fetched n).status = s.status := rfl
@[simp] theorem State.fetched_tick (n : Nat) : (s.fetched n).tick = s.tick := rfl
@[simp] theorem State.fetched_cfg (n : Nat) : (s.fetched n).cfg = s.cfg := rfl

/-! The four endings of a step. -/

@[simp] theorem State.settle_error (k : ErrorKind) : s.settle (.error k) = s.raise k := rfl
@[simp] theorem State.settle_halt : s.settle (.ok .halt) = s.stopHalted := rfl
@[simp] theorem State.settle_block : s.settle (.ok .block) = s.suspend := rfl
@[simp] theorem State.settle_advance (c : State) (n : Atom) : s.settle (.ok (.advance c n)) = s.commit c n := rfl

/-- No ending of a step changes the parameters. -/
@[simp] theorem State.settle_cfg (r : Except ErrorKind Ending) : (s.settle r).cfg = s.cfg := by
  rcases r with k | ⟨c, n⟩ | _ | _ <;> rfl

/-- What taking an input leaves, when there is one. -/
theorem State.popInput?_some {v : Atom} {t : State} (h : s.popInput? = some (v, t)) :
    s.inq = v :: t.inq ∧ t = { s with inq := t.inq } := by
  unfold State.popInput? at h
  split at h
  · cases h
  · next v' rest hq =>
    obtain ⟨rfl, rfl⟩ := Prod.mk.inj (Option.some.inj h)
    exact ⟨hq, rfl⟩

/-- Taking an input fails exactly on an empty queue. -/
theorem State.popInput?_none : s.popInput? = none ↔ s.inq = [] := by
  unfold State.popInput?
  split <;> simp_all

end Sys2Proof.Machine
end

