-- ==== Sys2Proof/Laws/Ops.lean ====
section
/-! SUPPORT. One lemma per shared operation that says everything it can do: when it answers, with what, and with which
error otherwise. -/

namespace Sys2Proof.Machine

/-! ### Sequencing -/

/-- A sequence of two operations answers exactly when the first answers and the second answers from there. -/
theorem bind_eq_ok {α β : Type} {x : Except ErrorKind α} {f : α → Except ErrorKind β} {b : β} :
    (x >>= f) = .ok b ↔ ∃ a, x = .ok a ∧ f a = .ok b := by
  cases x <;> simp [bind, Except.bind]

/-- It raises exactly the first error. -/
theorem bind_eq_error {α β : Type} {x : Except ErrorKind α} {f : α → Except ErrorKind β} {k : ErrorKind} :
    (x >>= f) = .error k ↔ x = .error k ∨ ∃ a, x = .ok a ∧ f a = .error k := by
  cases x <;> simp [bind, Except.bind]

theorem bind_of_ok {α β : Type} {x : Except ErrorKind α} {f : α → Except ErrorKind β} {a : α} (h : x = .ok a) :
    (x >>= f) = f a := by
  subst h; rfl

theorem bind_of_error {α β : Type} {x : Except ErrorKind α} {f : α → Except ErrorKind β} {k : ErrorKind}
    (h : x = .error k) : (x >>= f) = .error k := by
  subst h; rfl

/-! ### Checks in order -/

@[simp] theorem firstFailure_nil : firstFailure [] = none := rfl

theorem firstFailure_cons (c : Option ErrorKind) (cs : List (Option ErrorKind)) :
    firstFailure (c :: cs) = c.or (firstFailure cs) := by
  cases c <;> rfl

theorem firstFailure_append (cs ds : List (Option ErrorKind)) :
    firstFailure (cs ++ ds) = (firstFailure cs).or (firstFailure ds) := by
  induction cs with
  | nil => simp
  | cons c cs ih => rw [List.cons_append, firstFailure_cons, ih, firstFailure_cons, Option.or_assoc]

/-! ### The range check -/

theorem checked_eq_ok {w a : Atom} {v : Int} : checked w v = .ok a ↔ a.toInt = v := by
  unfold checked
  rw [← Atom.ofInt?_eq_some]
  cases Atom.ofInt? v <;> simp

theorem checked_eq_error {w : Atom} {v : Int} {k : ErrorKind} :
    checked w v = .error k ↔ rangeFailure w v = some k := by
  unfold checked rangeFailure
  by_cases h : InAtom v
  · rw [if_pos h]
    cases hv : Atom.ofInt? v with
    | none => exact absurd h (Atom.ofInt?_eq_none.1 hv)
    | some a => simp
  · rw [if_neg h, Atom.ofInt?_eq_none.2 h]; simp

theorem rangeFailure_toInt (w a : Atom) : rangeFailure w a.toInt = none := if_pos (inAtom_toInt a)

/-- In range, the check answers. -/
theorem checked_of_inAtom (w : Atom) {v : Int} (h : InAtom v) : checked w v = .ok (BitVec.ofInt 64 v) :=
  checked_eq_ok.2 (toInt_ofInt_of_inAtom h)

/-! ### Accesses -/

theorem checkAccess_eq_ok {cfg : Config} {a : Atom} {kind : AccessKind} {n : Nat} :
    checkAccess cfg a kind = .ok n ↔ 0 ≤ a.toInt ∧ limitAdmits cfg a.toNat = true ∧ n = a.toNat := by
  unfold checkAccess
  split
  · next h => simp; omega
  · next h =>
    have h : 0 ≤ a.toInt := by omega
    split
    · next hl => simp [h, hl, eq_comm]
    · next hl => simp [hl]

theorem checkAccess_eq_error {s : State} {a : Atom} {kind : AccessKind} {k : ErrorKind} :
    checkAccess s.cfg a kind = .error k ↔ accessFailure s a.toInt kind = some k := by
  unfold checkAccess accessFailure
  rw [BitVec.ofInt_toInt]
  split
  · simp
  · next h =>
    rw [toInt_toNat_of_nonneg (by omega)]
    split <;> simp_all

/-- `MemRead` answers on a legal, admitted address, with the cell; it does nothing but grow the tape. -/
theorem memRead_eq_ok {a v : Atom} {s t : State} :
    memRead a s = .ok (v, t) ↔
      0 ≤ a.toInt ∧ limitAdmits s.cfg a.toNat = true ∧ v = s.mem.get a.toNat ∧
        t = s.setMem (s.mem.growTo (a.toNat + 1)) := by
  unfold memRead
  rw [bind_eq_ok]
  simp only [checkAccess_eq_ok, Except.ok.injEq, Prod.mk.injEq, Memory.get_growTo]
  constructor
  · rintro ⟨n, ⟨h0, hl, rfl⟩, rfl, rfl⟩
    exact ⟨h0, hl, rfl, rfl⟩
  · rintro ⟨h0, hl, rfl, rfl⟩
    exact ⟨_, ⟨h0, hl, rfl⟩, rfl, rfl⟩

theorem memRead_eq_error {a : Atom} {s : State} {k : ErrorKind} :
    memRead a s = .error k ↔ accessFailure s a.toInt .read = some k := by
  unfold memRead
  rw [bind_eq_error, checkAccess_eq_error]
  simp

/-- `MemWrite` answers on a legal, admitted address; it stores the value there. -/
theorem memWrite_eq_ok {a v : Atom} {s t : State} :
    memWrite a v s = .ok t ↔
      0 ≤ a.toInt ∧ limitAdmits s.cfg a.toNat = true ∧ t = s.setMem (s.mem.store a.toNat v) := by
  unfold memWrite
  rw [bind_eq_ok]
  simp only [checkAccess_eq_ok, Except.ok.injEq]
  constructor
  · rintro ⟨n, ⟨h0, hl, rfl⟩, rfl⟩
    exact ⟨h0, hl, rfl⟩
  · rintro ⟨h0, hl, rfl⟩
    exact ⟨_, ⟨h0, hl, rfl⟩, rfl⟩

theorem memWrite_eq_error {a v : Atom} {s : State} {k : ErrorKind} :
    memWrite a v s = .error k ↔ accessFailure s a.toInt .write = some k := by
  unfold memWrite
  rw [bind_eq_error, checkAccess_eq_error]
  simp

/-! ### The tape of a working copy does not matter to what its operands are -/

@[simp] theorem setMem_setMem (s : State) (m n : Memory) : (s.setMem m).setMem n = s.setMem n := rfl

@[simp] theorem effectiveAddress_setMem (s : State) (m : Memory) (p : Param) :
    effectiveAddress (s.setMem m) p = effectiveAddress s p := rfl

@[simp] theorem lengthRead_setMem (s : State) (m : Memory) (p : Param) :
    lengthRead (s.setMem m) p = lengthRead s p := rfl

@[simp] theorem readChecks_setMem (w : Atom) (s : State) (m : Memory) (p : Param) :
    readChecks w (s.setMem m) p = readChecks w s p := rfl

@[simp] theorem operandValue_growTo (s : State) (n : Nat) (p : Param) :
    operandValue (s.setMem (s.mem.growTo n)) p = operandValue s p := by
  unfold operandValue
  simp only [effectiveAddress_setMem, State.setMem_mem, Memory.get_growTo]

theorem growTo_zero (m : Memory) : m.growTo 0 = m := if_pos (Nat.zero_le _)

@[simp] theorem setMem_self (s : State) : s.setMem s.mem = s := rfl

/-! ### The operand resolver -/

/-- `resolve_read` answers exactly on a readable parameter, with its value; it does nothing but grow the tape. -/
theorem resolveRead_eq_ok {w : Atom} {p : Param} {s t : State} {x : Atom} :
    resolveRead w p s = .ok (x, t) ↔
      Readable s p ∧ x.toInt = operandValue s p ∧ t = s.setMem (s.mem.growTo (lengthRead s p)) := by
  obtain ⟨m, r⟩ := p
  cases m with
  | immediate =>
    simp [resolveRead, Readable, operandValue, lengthRead, growTo_zero, BitVec.toInt_inj, eq_comm]
  | position =>
    have hr := inAtom_toInt r
    simp only [resolveRead, memRead_eq_ok, Readable, Accessible, operandValue, lengthRead, effectiveAddress,
      BitVec.toInt_inj]
    constructor
    · rintro ⟨h0, hl, rfl, rfl⟩
      rw [toInt_toNat_of_nonneg h0]
      exact ⟨.inr ⟨h0, hr.2, hl⟩, rfl, rfl⟩
    · rintro ⟨h, hx, rfl⟩
      obtain ⟨h0, -, hl⟩ := h.resolve_left (by simp)
      rw [toInt_toNat_of_nonneg h0] at *
      exact ⟨h0, hl, hx, rfl⟩
  | relative =>
    simp only [resolveRead, bind_eq_ok, checked_eq_ok, memRead_eq_ok, Readable, Accessible, operandValue, lengthRead,
      effectiveAddress, BitVec.toInt_inj]
    constructor
    · rintro ⟨a, ha, h0, hl, rfl, rfl⟩
      have hr := inAtom_toInt a
      rw [← ha, toInt_toNat_of_nonneg h0]
      exact ⟨.inr ⟨h0, hr.2, hl⟩, rfl, rfl⟩
    · rintro ⟨h, hx, rfl⟩
      obtain ⟨h0, h1, hl⟩ := h.resolve_left (by simp)
      have ha := toInt_ofInt_of_inAtom (v := r.toInt + s.rb.toInt) ⟨by omega, h1⟩
      refine ⟨_, ha, ?_⟩
      rw [← ha] at h0 hl hx ⊢
      rw [toInt_toNat_of_nonneg h0] at *
      rw [BitVec.ofInt_toInt]
      exact ⟨h0, hl, hx, rfl⟩

/-- Otherwise it raises the first of the checks of a read parameter that fails. -/
theorem resolveRead_eq_error {w : Atom} {p : Param} {s : State} {k : ErrorKind} :
    resolveRead w p s = .error k ↔ firstFailure (readChecks w s p) = some k := by
  obtain ⟨m, r⟩ := p
  cases m with
  | immediate => simp [resolveRead, readChecks]
  | position =>
    simp [resolveRead, readChecks, memRead_eq_error, effectiveAddress, firstFailure_cons, rangeFailure_toInt]
  | relative =>
    simp only [resolveRead, readChecks, effectiveAddress, firstFailure_cons, firstFailure_nil, Option.or_none,
      bind_eq_error, checked_eq_error, checked_eq_ok, memRead_eq_error]
    by_cases h : InAtom (r.toInt + s.rb.toInt)
    · have hn : rangeFailure w (r.toInt + s.rb.toInt) = none := if_pos h
      rw [hn]
      constructor
      · rintro (h | ⟨a, ha, hk⟩)
        · cases h
        · rw [← ha]; simpa using hk
      · intro hk
        exact .inr ⟨_, toInt_ofInt_of_inAtom h, by rw [toInt_ofInt_of_inAtom h]; simpa using hk⟩
    · have hn : rangeFailure w (r.toInt + s.rb.toInt) = some (.arithmeticOverflow w) := if_neg h
      rw [hn]
      constructor
      · rintro (h | ⟨a, ha, hk⟩)
        · simpa using h
        · exact absurd (ha ▸ inAtom_toInt a) h
      · intro hk
        exact .inl (by simpa using hk)

/-- `resolve_write_addr` answers the effective address of a parameter that is not Immediate. -/
theorem resolveWriteAddr_eq_ok {w : Atom} {p : Param} {s : State} {a : Atom} :
    resolveWriteAddr w p s = .ok a ↔ p.mode ≠ .immediate ∧ a.toInt = effectiveAddress s p := by
  obtain ⟨m, r⟩ := p
  cases m <;> simp [resolveWriteAddr, effectiveAddress, checked_eq_ok, BitVec.toInt_inj]
  exact eq_comm

theorem resolveWriteAddr_eq_error {w : Atom} {p : Param} {s : State} {k : ErrorKind} (h : p.mode ≠ .immediate) :
    resolveWriteAddr w p s = .error k ↔ firstFailure (writeAddrChecks w s p) = some k := by
  obtain ⟨m, r⟩ := p
  cases m with
  | immediate => exact absurd rfl h
  | position =>
    simp [resolveWriteAddr, writeAddrChecks, effectiveAddress, firstFailure_cons, rangeFailure_toInt]
  | relative =>
    simp [resolveWriteAddr, writeAddrChecks, effectiveAddress, firstFailure_cons, checked_eq_error]

end Sys2Proof.Machine
end

