-- ==== Sys2Proof/Laws/Stages.lean ====
section
/-! SUPPORT. One lemma per execute stage for its answers and one for its errors: everything a stage can do, in the terms of
Safety.lean. -/

namespace Sys2Proof.Machine

/-! ### The errors of a sequence are the first failure of its checks -/

/-- An operation raises exactly the first failure of a list of checks. -/
def RaisesFirst {α : Type} (x : Except ErrorKind α) (checks : List (Option ErrorKind)) : Prop :=
  ∀ k, x = .error k ↔ firstFailure checks = some k

theorem RaisesFirst.ok {α : Type} (a : α) : RaisesFirst (.ok a) [] := by simp [RaisesFirst]

theorem RaisesFirst.bind {α β : Type} {x : Except ErrorKind α} {f : α → Except ErrorKind β}
    {cs ds : List (Option ErrorKind)} (hx : RaisesFirst x cs) (hf : ∀ a, x = .ok a → RaisesFirst (f a) ds) :
    RaisesFirst (x >>= f) (cs ++ ds) := by
  intro k
  rw [firstFailure_append]
  cases x with
  | error k0 =>
    rw [(hx k0).1 rfl, Option.some_or, bind_of_error rfl]
    simp
  | ok a =>
    have hn : firstFailure cs = none := by
      cases h : firstFailure cs with
      | none => rfl
      | some k0 => cases (hx k0).2 h
    rw [hn, Option.none_or, bind_of_ok rfl]
    exact hf a rfl k

theorem resolveRead_raises (w : Atom) (p : Param) (s : State) : RaisesFirst (resolveRead w p s) (readChecks w s p) :=
  fun _ => resolveRead_eq_error

theorem resolveWriteAddr_raises (w : Atom) {p : Param} (s : State) (h : p.mode ≠ .immediate) :
    RaisesFirst (resolveWriteAddr w p s) (writeAddrChecks w s p) := fun _ => resolveWriteAddr_eq_error h

theorem checked_raises (w : Atom) (v : Int) : RaisesFirst (checked w v) [rangeFailure w v] := by
  intro k
  rw [checked_eq_error, firstFailure_cons, firstFailure_nil, Option.or_none]

theorem memRead_raises (a : Atom) (s : State) : RaisesFirst (memRead a s) [accessFailure s a.toInt .read] := by
  intro k
  rw [memRead_eq_error, firstFailure_cons, firstFailure_nil, Option.or_none]

theorem memWrite_raises (a v : Atom) (s : State) : RaisesFirst (memWrite a v s) [accessFailure s a.toInt .write] := by
  intro k
  rw [memWrite_eq_error, firstFailure_cons, firstFailure_nil, Option.or_none]

theorem accessFailure_setMem (s : State) (m : Memory) (v : Int) (kind : AccessKind) :
    accessFailure (s.setMem m) v kind = accessFailure s v kind := rfl

/-- The value of an operand is an atom. -/
theorem exists_operandValue (s : State) (p : Param) : ∃ x : Atom, x.toInt = operandValue s p := by
  unfold operandValue; split <;> exact ⟨_, rfl⟩

/-! ### Add, Multiply, LessThan, Equals -/

/-- The tape length the accesses of a three-operand instruction ask for before its write. -/
def lengthBinary (s : State) (a b : Param) : Nat :=
  max (max (s.ip.toInt + 4).toNat (lengthRead s a)) (lengthRead s b)

/-- What `binaryStage` answers, and when: exactly if its operands can be read and its destination written, the result is
an atom and there is room to advance. -/
theorem binaryStage_eq_ok {f : Int → Int → Int} {w : Atom} {a b c : Param} {s : State} {e : Ending} :
    binaryStage f w a b c s = .ok e ↔
      Readable s a ∧ Readable s b ∧ c.mode ≠ .immediate ∧
        ∃ d r n : Atom, d.toInt = effectiveAddress s c ∧ r.toInt = f (operandValue s a) (operandValue s b) ∧
          0 ≤ d.toInt ∧ limitAdmits s.cfg d.toNat = true ∧ n.toInt = s.ip.toInt + 4 ∧
            e = .advance (s.setMem ((s.mem.growTo (lengthBinary s a b)).store d.toNat r)) n := by
  unfold binaryStage fallThrough
  simp only [bind_eq_ok, Prod.exists, State.fetched, resolveRead_eq_ok, resolveWriteAddr_eq_ok, checked_eq_ok,
    memWrite_eq_ok, Except.ok.injEq]
  constructor
  · rintro ⟨x, s1, ⟨ha, hx, rfl⟩, y, s2, ⟨hb, hy, rfl⟩, d, ⟨hc, hd⟩, r, hr, s3, ⟨h0, hl, rfl⟩, n, hn, rfl⟩
    simp only [setMem_setMem, State.setMem_mem, Memory.growTo_growTo, operandValue_growTo, lengthRead_setMem,
      effectiveAddress_setMem] at *
    exact ⟨ha, hb, hc, d, r, n, hd, by rw [hr, hx, hy], h0, hl, hn, rfl⟩
  · rintro ⟨ha, hb, hc, d, r, n, hd, hr, h0, hl, hn, rfl⟩
    obtain ⟨x, hx⟩ := exists_operandValue s a
    obtain ⟨y, hy⟩ := exists_operandValue s b
    refine ⟨x, _, ⟨ha, ?_, rfl⟩, y, _, ⟨hb, ?_, rfl⟩, d, ⟨hc, ?_⟩, r, ?_, _, ⟨h0, hl, rfl⟩, n, hn, ?_⟩ <;>
      simp only [setMem_setMem, State.setMem_mem, Memory.growTo_growTo, operandValue_growTo, lengthRead_setMem,
        effectiveAddress_setMem, hx, hy, hd, hr]
    rfl

/-- Otherwise it raises the first failing check, in the order of spec/40_execution_cycle.md R102. -/
theorem binaryStage_raises (f : Int → Int → Int) (w : Atom) (a b : Param) {c : Param} (s : State)
    (hc : c.mode ≠ .immediate) :
    RaisesFirst (binaryStage f w a b c s)
      (readChecks w s a ++ (readChecks w s b ++ (writeAddrChecks w s c ++
        ([rangeFailure w (f (operandValue s a) (operandValue s b))] ++ (writeChecks s c ++
          ([rangeFailure w (s.ip.toInt + 4)] ++ [])))))) := by
  unfold binaryStage fallThrough
  refine (resolveRead_raises w a _).bind fun ⟨x, s1⟩ readA => ?_
  obtain ⟨-, hx, rfl⟩ := resolveRead_eq_ok.1 readA
  refine (resolveRead_raises w b _).bind fun ⟨y, s2⟩ readB => ?_
  obtain ⟨-, hy, rfl⟩ := resolveRead_eq_ok.1 readB
  refine (resolveWriteAddr_raises w _ hc).bind fun d addr => ?_
  obtain ⟨-, hd⟩ := resolveWriteAddr_eq_ok.1 addr
  clear readA readB addr
  simp only [State.fetched, setMem_setMem, State.setMem_mem, Memory.growTo_growTo, operandValue_growTo,
    lengthRead_setMem, effectiveAddress_setMem] at hx hy hd ⊢
  rw [← hx, ← hy]
  refine (checked_raises w _).bind fun r _ => ?_
  rw [writeChecks, ← hd]
  exact (memWrite_raises d r _).bind fun s3 _ => (checked_raises w _).bind fun n _ => .ok _

/-! ### JumpIfTrue, JumpIfFalse -/

/-- The tape length the accesses of a jump ask for. -/
def lengthJump (s : State) (a t : Param) : Nat :=
  max (max (s.ip.toInt + 3).toNat (lengthRead s a)) (lengthRead s t)

/-- What `jumpStage` answers, and when: the target as it stands if the jump is taken, else the fall-through. -/
theorem jumpStage_eq_ok {taken : Atom → Bool} {w : Atom} {a t : Param} {s : State} {e : Ending} :
    jumpStage taken w a t s = .ok e ↔
      Readable s a ∧ Readable s t ∧
        ∃ x n : Atom, x.toInt = operandValue s a ∧
          n.toInt = (if taken x then operandValue s t else s.ip.toInt + 3) ∧
            e = .advance (s.setMem (s.mem.growTo (lengthJump s a t))) n := by
  unfold jumpStage fallThrough
  simp only [bind_eq_ok, Prod.exists, State.fetched, resolveRead_eq_ok]
  constructor
  · rintro ⟨x, s1, ⟨ha, hx, rfl⟩, y, s2, ⟨ht, hy, rfl⟩, h⟩
    simp only [setMem_setMem, State.setMem_mem, Memory.growTo_growTo, operandValue_growTo, lengthRead_setMem] at *
    split at h
    · next hk =>
      obtain rfl := Except.ok.inj h
      exact ⟨ha, ht, x, y, hx, by simp [hk, hy], rfl⟩
    · next hk =>
      obtain ⟨n, hn, h⟩ := bind_eq_ok.1 h
      obtain rfl := Except.ok.inj h
      exact ⟨ha, ht, x, n, hx, by simpa [hk] using checked_eq_ok.1 hn, rfl⟩
  · rintro ⟨ha, ht, x, n, hx, hn, rfl⟩
    obtain ⟨y, hy⟩ := exists_operandValue s t
    refine ⟨x, _, ⟨ha, ?_, rfl⟩, y, _, ⟨ht, ?_, rfl⟩, ?_⟩
    · simpa using hx
    · simpa [Memory.growTo_growTo] using hy
    · simp only [setMem_setMem, State.setMem_mem, Memory.growTo_growTo, lengthRead_setMem]
      split
      · next hk =>
        have hyn : y = n := BitVec.eq_of_toInt_eq (by rw [hy, hn, if_pos hk])
        rw [hyn]; rfl
      · next hk =>
        rw [if_neg hk] at hn
        exact bind_eq_ok.2 ⟨n, checked_eq_ok.2 hn, rfl⟩

/-- Otherwise it raises the first failing check; a taken jump makes no check of its target. -/
theorem jumpStage_raises (taken : Atom → Bool) (w : Atom) (a t : Param) (s : State) {x : Atom}
    (hx : x.toInt = operandValue s a) :
    RaisesFirst (jumpStage taken w a t s)
      (readChecks w s a ++ (readChecks w s t ++ (if taken x then [] else [rangeFailure w (s.ip.toInt + 3)]))) := by
  unfold jumpStage fallThrough
  refine (resolveRead_raises w a _).bind fun ⟨x', s1⟩ readA => ?_
  obtain ⟨-, hx', rfl⟩ := resolveRead_eq_ok.1 readA
  clear readA
  refine (resolveRead_raises w t _).bind fun ⟨y, s2⟩ hy => ?_
  simp only [State.fetched, operandValue_growTo] at hx'
  have hxx : x' = x := BitVec.eq_of_toInt_eq (by rw [hx', hx])
  subst hxx
  show RaisesFirst (if taken x' then _ else _) _
  split
  · exact .ok _
  · exact (checked_raises w _).bind fun n _ => .ok _

/-! ### Input -/

/-- What `inputStage` answers, and when: it blocks on an empty queue once the write address is an atom; otherwise it
stores the head of the queue. -/
theorem inputStage_eq_ok {w : Atom} {c : Param} {s : State} {e : Ending} :
    inputStage w c s = .ok e ↔
      c.mode ≠ .immediate ∧ ∃ d : Atom, d.toInt = effectiveAddress s c ∧
        ((s.inq = [] ∧ e = .block) ∨
          ∃ (v : Atom) (rest : List Atom) (n : Atom), s.inq = v :: rest ∧ 0 ≤ d.toInt ∧
            limitAdmits s.cfg d.toNat = true ∧ n.toInt = s.ip.toInt + 2 ∧
              e = .advance { s with
                mem := (s.mem.growTo (s.ip.toInt + 2).toNat).store d.toNat v
                inq := rest } n) := by
  unfold inputStage fallThrough
  simp only [bind_eq_ok, resolveWriteAddr_eq_ok, State.fetched, effectiveAddress_setMem]
  cases hq : s.inq with
  | nil =>
    have hp : (s.setMem (s.mem.growTo (s.ip.toInt + (2 : Nat)).toNat)).popInput? = none :=
      (State.popInput?_none _).2 hq
    rw [hp]
    constructor
    · rintro ⟨d, ⟨hc, hd⟩, he⟩
      exact ⟨hc, d, hd, .inl ⟨rfl, (Except.ok.inj he).symm⟩⟩
    · rintro ⟨hc, d, hd, ⟨-, rfl⟩ | ⟨v, rest, n, h, -⟩⟩
      · exact ⟨d, ⟨hc, hd⟩, rfl⟩
      · cases h
  | cons v rest =>
    have hp : (s.setMem (s.mem.growTo (s.ip.toInt + (2 : Nat)).toNat)).popInput? =
        some (v, { s with mem := s.mem.growTo (s.ip.toInt + 2).toNat, inq := rest }) := by
      simp only [State.popInput?, State.setMem_inq, hq]; rfl
    rw [hp]
    simp only [bind_eq_ok, memWrite_eq_ok, checked_eq_ok, Except.ok.injEq]
    constructor
    · rintro ⟨d, ⟨hc, hd⟩, s2, ⟨h0, hl, rfl⟩, n, hn, rfl⟩
      exact ⟨hc, d, hd, .inr ⟨v, rest, n, rfl, h0, hl, hn, rfl⟩⟩
    · rintro ⟨hc, d, hd, ⟨h, -⟩ | ⟨v', rest', n, h, h0, hl, hn, rfl⟩⟩
      · cases h
      · obtain ⟨rfl, rfl⟩ := List.cons.inj h
        exact ⟨d, ⟨hc, hd⟩, _, ⟨h0, hl, rfl⟩, n, hn, rfl⟩

/-- Otherwise it raises the first failing check; on an empty queue only the write address is checked (D8). -/
theorem inputStage_raises (w : Atom) {c : Param} (s : State) (hc : c.mode ≠ .immediate) :
    RaisesFirst (inputStage w c s)
      (writeAddrChecks w s c ++
        (if s.inq = [] then [] else writeChecks s c ++ ([rangeFailure w (s.ip.toInt + 2)] ++ []))) := by
  unfold inputStage fallThrough
  refine (resolveWriteAddr_raises w _ hc).bind fun d hd => ?_
  obtain ⟨-, hd⟩ := resolveWriteAddr_eq_ok.1 hd
  cases hp : (s.fetched 2).popInput? with
  | none =>
    rw [if_pos (show s.inq = [] from (State.popInput?_none (s.fetched 2)).1 hp)]
    exact .ok _
  | some vt =>
    obtain ⟨v, t⟩ := vt
    obtain ⟨hq, ht⟩ := State.popInput?_some _ hp
    have hne : s.inq ≠ [] := by
      rw [State.fetched_inq] at hq; simp [hq]
    rw [if_neg hne, writeChecks, ← show d.toInt = effectiveAddress s c from hd]
    have hcfg : ∀ a kind, accessFailure t a kind = accessFailure s a kind := by rw [ht]; intros; rfl
    refine RaisesFirst.bind ?_ fun s2 _ => (checked_raises w _).bind fun n _ => .ok _
    rw [← hcfg]
    exact memWrite_raises d v t

/-! ### Output, AdjustRelativeBase -/

/-- What `outputStage` answers, and when. -/
theorem outputStage_eq_ok {w : Atom} {a : Param} {s : State} {e : Ending} :
    outputStage w a s = .ok e ↔
      Readable s a ∧ ∃ x n : Atom, x.toInt = operandValue s a ∧ n.toInt = s.ip.toInt + 2 ∧
        e = .advance { s with
          mem := s.mem.growTo (max (s.ip.toInt + 2).toNat (lengthRead s a))
          outq := s.outq ++ [x] } n := by
  unfold outputStage fallThrough
  simp only [bind_eq_ok, Prod.exists, State.fetched, resolveRead_eq_ok, checked_eq_ok, Except.ok.injEq]
  constructor
  · rintro ⟨x, s1, ⟨ha, hx, rfl⟩, n, hn, rfl⟩
    simp only [setMem_setMem, State.setMem_mem, Memory.growTo_growTo, operandValue_growTo, lengthRead_setMem] at *
    exact ⟨ha, x, n, hx, hn, rfl⟩
  · rintro ⟨ha, x, n, hx, hn, rfl⟩
    refine ⟨x, _, ⟨ha, by simpa using hx, rfl⟩, n, hn, ?_⟩
    simp only [setMem_setMem, State.setMem_mem, Memory.growTo_growTo, lengthRead_setMem]
    rfl

theorem outputStage_raises (w : Atom) (a : Param) (s : State) :
    RaisesFirst (outputStage w a s) (readChecks w s a ++ ([rangeFailure w (s.ip.toInt + 2)] ++ [])) := by
  unfold outputStage fallThrough
  exact (resolveRead_raises w a _).bind fun _ _ => (checked_raises w _).bind fun _ _ => .ok _

/-- What `adjustStage` answers, and when. -/
theorem adjustStage_eq_ok {w : Atom} {a : Param} {s : State} {e : Ending} :
    adjustStage w a s = .ok e ↔
      Readable s a ∧ ∃ r n : Atom, r.toInt = s.rb.toInt + operandValue s a ∧ n.toInt = s.ip.toInt + 2 ∧
        e = .advance { s with
          mem := s.mem.growTo (max (s.ip.toInt + 2).toNat (lengthRead s a))
          rb := r } n := by
  unfold adjustStage fallThrough
  simp only [bind_eq_ok, Prod.exists, State.fetched, resolveRead_eq_ok, checked_eq_ok, Except.ok.injEq]
  constructor
  · rintro ⟨x, s1, ⟨ha, hx, rfl⟩, r, hr, n, hn, rfl⟩
    simp only [setMem_setMem, State.setMem_mem, Memory.growTo_growTo, operandValue_growTo, lengthRead_setMem] at *
    exact ⟨ha, r, n, by rw [hr, hx], hn, rfl⟩
  · rintro ⟨ha, r, n, hr, hn, rfl⟩
    obtain ⟨x, hx⟩ := exists_operandValue s a
    refine ⟨x, _, ⟨ha, by simpa using hx, rfl⟩, r, by rw [hr, hx], n, hn, ?_⟩
    simp only [setMem_setMem, State.setMem_mem, Memory.growTo_growTo, lengthRead_setMem]
    rfl

theorem adjustStage_raises (w : Atom) (a : Param) (s : State) :
    RaisesFirst (adjustStage w a s)
      (readChecks w s a ++ ([rangeFailure w (s.rb.toInt + operandValue s a)] ++
        ([rangeFailure w (s.ip.toInt + 2)] ++ []))) := by
  unfold adjustStage fallThrough
  refine (resolveRead_raises w a _).bind fun ⟨x, s1⟩ readA => ?_
  obtain ⟨-, hx, -⟩ := resolveRead_eq_ok.1 readA
  simp only [State.fetched, operandValue_growTo] at hx
  rw [← hx]
  exact (checked_raises w _).bind fun _ _ => (checked_raises w _).bind fun _ _ => .ok _

end Sys2Proof.Machine
end

