-- ==== Sys2Proof/Laws/Step.lean ====
section
/-! SUPPORT. What a fetch and a step can do, said once. -/

namespace Sys2Proof.Machine

/-! ### Fetch -/

/-- The parameter words fetched are the cells from `ip + k` on, each of which must be accessible; the copy only grows. -/
theorem fetchParams_eq_ok {w : Atom} {n k : Nat} {s : State} {ps : List Atom} {t : State} :
    fetchParams w n k s = .ok (ps, t) →
      (∀ j, j < n → Accessible s (s.ip.toInt + ((k + j : Nat) : Int))) ∧
        ps = (List.range n).map (fun j => s.mem.get (s.ip.toInt + ((k + j : Nat) : Int)).toNat) ∧
          ∃ l, t = s.setMem (s.mem.growTo l) := by
  induction n generalizing k s ps t with
  | zero =>
    intro h
    obtain ⟨rfl, rfl⟩ := Prod.mk.inj (Except.ok.inj h)
    exact ⟨by simp, rfl, 0, by rw [growTo_zero]; rfl⟩
  | succ n ih =>
    intro h
    unfold fetchParams at h
    simp only [bind_eq_ok, Prod.exists, checked_eq_ok, memRead_eq_ok, Except.ok.injEq, Prod.mk.injEq] at h
    obtain ⟨a, ha, p, s1, ⟨h0, hl, rfl, rfl⟩, ps', s2, hrest, rfl, rfl⟩ := h
    obtain ⟨hacc, rfl, l, rfl⟩ := ih hrest
    simp only [State.setMem_ip, State.setMem_mem, Memory.get_growTo, Accessible, State.setMem_cfg] at hacc ⊢
    have hr := inAtom_toInt a
    refine ⟨fun j hj => ?_, ?_, _, by rw [setMem_setMem, Memory.growTo_growTo]⟩
    · cases j with
      | zero =>
        have e : s.ip.toInt + ((k + 0 : Nat) : Int) = a.toInt := by rw [ha]; simp
        rw [e, toInt_toNat_of_nonneg h0]
        exact ⟨h0, hr.2, hl⟩
      | succ j =>
        have e : k + 1 + j = k + (j + 1) := by omega
        rw [← e]
        exact hacc j (by omega)
    · rw [List.range_succ_eq_map, List.map_cons, List.map_map]
      congr 1
      · rw [← toInt_toNat_of_nonneg h0, ha]; simp
      · apply List.map_congr_left
        intro j _
        have e : k + 1 + j = k + (j + 1) := by omega
        simp only [Function.comp, e]

theorem fetchParams_of_accessible {w : Atom} {n k : Nat} {s : State}
    (h : ∀ j, j < n → Accessible s (s.ip.toInt + ((k + j : Nat) : Int))) : ∃ r, fetchParams w n k s = .ok r := by
  induction n generalizing k s with
  | zero => exact ⟨_, rfl⟩
  | succ n ih =>
    obtain ⟨h0, h1, hl⟩ := h 0 (by omega)
    have hi : InAtom (s.ip.toInt + (k : Int)) := ⟨by simp at h0; omega, by simpa using h1⟩
    have ha := toInt_ofInt_of_inAtom hi
    have hread : ∃ r, memRead (BitVec.ofInt 64 (s.ip.toInt + (k : Int))) s = .ok r := by
      refine ⟨(_, _), memRead_eq_ok.2 ⟨by rw [ha]; simpa using h0, ?_, rfl, rfl⟩⟩
      rw [← toInt_toNat_of_nonneg (by rw [ha]; simpa using h0), ha]
      simpa using hl
    obtain ⟨⟨p, s1⟩, hr⟩ := hread
    obtain ⟨-, -, -, hs1⟩ := memRead_eq_ok.1 hr
    obtain ⟨⟨ps, s2⟩, hps⟩ := ih (k := k + 1) (s := s1) (by
      intro j hj
      have := h (j + 1) (by omega)
      rw [hs1, show k + 1 + j = k + (j + 1) by omega]
      exact this)
    refine ⟨(p :: ps, s2), ?_⟩
    unfold fetchParams
    exact bind_eq_ok.2 ⟨_, checked_of_inAtom w hi, bind_eq_ok.2 ⟨_, hr, bind_eq_ok.2 ⟨_, hps, rfl⟩⟩⟩

/-- A fetch answers an instruction exactly when the word at `ip` decodes and it and its parameter words are accessible;
the instruction is the one those words make. -/
theorem fetchInstr_eq_ok {s : State} {i : Instr} :
    fetchInstr s = .ok i ↔
      0 ≤ s.ip.toInt ∧ limitAdmits s.cfg s.ip.toNat = true ∧
        ∃ h, decodeWord (s.mem.get s.ip.toNat) = .ok h ∧
          (∀ j, j < h.row.arity → Accessible s (s.ip.toInt + ((1 + j : Nat) : Int))) ∧
            i = h.instr ((List.range h.row.arity).map fun j => s.mem.get (s.ip.toInt + ((1 + j : Nat) : Int)).toNat) := by
  unfold fetchInstr
  simp only [bind_eq_ok, Prod.exists, memRead_eq_ok, Except.ok.injEq]
  constructor
  · rintro ⟨w, s1, ⟨h0, hl, rfl, rfl⟩, h, hd, ps, t, hps, rfl⟩
    obtain ⟨hacc, rfl, -⟩ := fetchParams_eq_ok hps
    refine ⟨h0, hl, h, hd, fun j hj => hacc j hj, ?_⟩
    simp only [State.setMem_ip, State.setMem_mem, Memory.get_growTo]
  · rintro ⟨h0, hl, h, hd, hacc, rfl⟩
    obtain ⟨⟨ps, t⟩, hps⟩ := fetchParams_of_accessible (w := s.mem.get s.ip.toNat) (k := 1)
      (s := s.setMem (s.mem.growTo (s.ip.toNat + 1))) (fun j hj => hacc j hj)
    obtain ⟨-, hp, -⟩ := fetchParams_eq_ok hps
    refine ⟨_, _, ⟨h0, hl, rfl, rfl⟩, h, hd, ps, t, hps, ?_⟩
    rw [hp]
    simp only [State.setMem_ip, State.setMem_mem, Memory.get_growTo]

theorem decodeWord_raises (w : Atom) : RaisesFirst (decodeWord w) [decodeFailure w] := by
  intro k
  unfold decodeFailure
  rw [firstFailure_cons, firstFailure_nil, Option.or_none]
  cases decodeWord w <;> simp

theorem fetchParams_raises (w : Atom) (n k : Nat) (s : State) :
    RaisesFirst (fetchParams w n k s)
      ((List.range n).flatMap fun j =>
        [rangeFailure w (s.ip.toInt + ((k + j : Nat) : Int)), accessFailure s (s.ip.toInt + ((k + j : Nat) : Int)) .read]) := by
  induction n generalizing k s with
  | zero => exact .ok _
  | succ n ih =>
    unfold fetchParams
    have e : ((List.range n).flatMap fun j =>
        [rangeFailure w (s.ip.toInt + ((k + (j + 1) : Nat) : Int)),
          accessFailure s (s.ip.toInt + ((k + (j + 1) : Nat) : Int)) .read]) =
        (List.range n).flatMap fun j =>
          [rangeFailure w (s.ip.toInt + ((k + 1 + j : Nat) : Int)),
            accessFailure s (s.ip.toInt + ((k + 1 + j : Nat) : Int)) .read] := by
      congr 1
      funext j
      rw [show k + (j + 1) = k + 1 + j by omega]
    rw [List.range_succ_eq_map, List.flatMap_cons, List.flatMap_map]
    show RaisesFirst _ ([rangeFailure w (s.ip.toInt + (k : Int)), accessFailure s (s.ip.toInt + (k : Int)) .read] ++
      (List.range n).flatMap fun j =>
        [rangeFailure w (s.ip.toInt + ((k + (j + 1) : Nat) : Int)),
          accessFailure s (s.ip.toInt + ((k + (j + 1) : Nat) : Int)) .read])
    rw [e]
    refine (checked_raises w _).bind fun a ha => ?_
    rw [← checked_eq_ok.1 ha]
    rw [← List.append_nil (List.flatMap _ _)]
    refine RaisesFirst.bind (cs := [_]) (memRead_raises a s) fun ⟨p, s1⟩ hr => ?_
    obtain ⟨-, -, -, rfl⟩ := memRead_eq_ok.1 hr
    exact (ih (k + 1) _).bind fun _ _ => .ok _

/-- Otherwise it raises the first failing check of fetch, decode and parameter fetch. -/
theorem fetchInstr_raises (s : State) : RaisesFirst (fetchInstr s) (fetchChecks s) := by
  unfold fetchInstr fetchChecks
  refine RaisesFirst.bind (cs := [_]) (ds := _ :: _) (memRead_raises s.ip s) fun ⟨w, s1⟩ hr => ?_
  obtain ⟨-, -, rfl, rfl⟩ := memRead_eq_ok.1 hr
  refine RaisesFirst.bind (cs := [_]) (decodeWord_raises _) fun h hd => ?_
  rw [hd]
  have e : paramChecks (s.mem.get s.ip.toNat) s h.row.arity =
      ((List.range h.row.arity).flatMap fun j =>
        [rangeFailure (s.mem.get s.ip.toNat) (s.ip.toInt + ((1 + j : Nat) : Int)),
          accessFailure s (s.ip.toInt + ((1 + j : Nat) : Int)) .read]) ++ [] := by
    rw [List.append_nil]
    unfold paramChecks
    congr 1
    funext j
    have : ((j : Int) + 1) = ((1 + j : Nat) : Int) := by omega
    rw [this]
  show RaisesFirst _ (paramChecks _ _ _)
  rw [e]
  exact (fetchParams_raises _ _ 1 _).bind fun _ _ => .ok _

/-! ### The step -/

/-- Every step answers a next state, and it is one of three: the same state under a latched terminal status, the state
with the first fetch error latched, or what the instruction at `ip` does. -/
theorem step_cases (s : State) :
    (s.status.terminal = true ∧ step s = .next s) ∨
      (s.status.terminal = false ∧ ∃ k, fetchInstr s = .error k ∧ step s = .next (s.raise k)) ∨
        (s.status.terminal = false ∧ ∃ i, fetchInstr s = .ok i ∧ step s = exec i s) := by
  unfold step
  cases ht : s.status.terminal with
  | true => exact .inl ⟨rfl, rfl⟩
  | false =>
    cases hf : fetchInstr s with
    | error k => exact .inr (.inl ⟨rfl, k, rfl, rfl⟩)
    | ok i => exact .inr (.inr ⟨rfl, i, rfl, rfl⟩)

/-- The execute stage of an instruction. -/
def stageOf (i : Instr) (s : State) : Except ErrorKind Ending :=
  match i with
  | .add a b c => binaryStage (fun x y => x + y) (encodeWord i) a b c s
  | .mul a b c => binaryStage (fun x y => x * y) (encodeWord i) a b c s
  | .input c => inputStage (encodeWord i) c s
  | .output a => outputStage (encodeWord i) a s
  | .jumpIfTrue a t => jumpStage jumpsOnTrue (encodeWord i) a t s
  | .jumpIfFalse a t => jumpStage jumpsOnFalse (encodeWord i) a t s
  | .lessThan a b c => binaryStage lessThanResult (encodeWord i) a b c s
  | .equals a b c => binaryStage equalsResult (encodeWord i) a b c s
  | .adjustRelativeBase a => adjustStage (encodeWord i) a s
  | .halt => .ok .halt

/-- Every instruction ends its step by settling what its execute stage answers. -/
theorem exec_eq_settle (i : Instr) (s : State) : exec i s = .next (s.settle (stageOf i s)) := by
  cases i <;> rfl

end Sys2Proof.Machine
end

