-- ==== Sys2Proof/Laws/Blind.lean ====
section
/-! SUPPORT. What a step does not look at. A change of state that keeps the tape, `ip`, `rb` and `MEM_LIMIT` and commutes
with the operations on the working copy passes through every execute stage unchanged: the noninterference claims rest on
this. -/

namespace Sys2Proof.Machine

/-- A change of state that fetch and the operand resolver cannot see. -/
structure Blind (F : State → State) : Prop where
  mem : ∀ s, (F s).mem = s.mem
  ip : ∀ s, (F s).ip = s.ip
  rb : ∀ s, (F s).rb = s.rb
  limit : ∀ s, (F s).cfg.memLimit = s.cfg.memLimit
  setMem : ∀ s m, F (s.setMem m) = (F s).setMem m

/-- The change made to the working copy an ending carries. -/
def Ending.mapCopy (F : State → State) : Ending → Ending
  | .advance copy n => .advance (F copy) n
  | .halt => .halt
  | .block => .block

theorem map_bind {α β γ : Type} (x : Except ErrorKind α) (g : α → β) (f : β → Except ErrorKind γ) :
    (x.map g >>= f) = x >>= fun a => f (g a) := by
  cases x <;> rfl

theorem map_eq_bind_congr {α β γ : Type} {x : Except ErrorKind α} {f : α → Except ErrorKind β} {g : β → γ}
    {h : α → Except ErrorKind γ} (e : ∀ a, h a = (f a).map g) : (x >>= h) = (x >>= f).map g := by
  cases x with
  | error k => rfl
  | ok a => exact e a

section Operations

variable {F : State → State} (hF : Blind F)

include hF

theorem Blind.checkAccess (s : State) (a : Atom) (kind : AccessKind) :
    checkAccess (F s).cfg a kind = checkAccess s.cfg a kind := by
  have h : limitAdmits (F s).cfg a.toNat = limitAdmits s.cfg a.toNat := by simp only [limitAdmits, hF.limit]
  simp only [Machine.checkAccess, h]

theorem Blind.memRead (a : Atom) (s : State) :
    memRead a (F s) = (memRead a s).map fun r => (r.1, F r.2) := by
  unfold Machine.memRead
  rw [hF.checkAccess]
  exact map_eq_bind_congr fun n => by simp only [Except.map, hF.mem, hF.setMem]

theorem Blind.memWrite (a v : Atom) (s : State) : memWrite a v (F s) = (memWrite a v s).map F := by
  unfold Machine.memWrite
  rw [hF.checkAccess]
  exact map_eq_bind_congr fun n => by simp only [Except.map, hF.mem, hF.setMem]

theorem Blind.fetched (s : State) (n : Nat) : (F s).fetched n = F (s.fetched n) := by
  simp only [State.fetched, hF.mem, hF.ip, hF.setMem]

theorem Blind.resolveRead (w : Atom) (p : Param) (s : State) :
    resolveRead w p (F s) = (resolveRead w p s).map fun r => (r.1, F r.2) := by
  obtain ⟨m, r⟩ := p
  cases m with
  | position => exact hF.memRead r s
  | immediate => rfl
  | relative =>
    simp only [Machine.resolveRead, hF.rb]
    exact map_eq_bind_congr fun a => hF.memRead a s

theorem Blind.resolveWriteAddr (w : Atom) (p : Param) (s : State) :
    resolveWriteAddr w p (F s) = resolveWriteAddr w p s := by
  simp only [Machine.resolveWriteAddr, hF.rb]

theorem Blind.fallThrough (w : Atom) (n : Nat) (s : State) : fallThrough w n (F s) = fallThrough w n s := by
  simp only [Machine.fallThrough, hF.ip]

theorem Blind.binaryStage (f : Int → Int → Int) (w : Atom) (a b c : Param) (s : State) :
    binaryStage f w a b c (F s) = (binaryStage f w a b c s).map (Ending.mapCopy F) := by
  unfold Machine.binaryStage
  rw [hF.fetched, hF.resolveRead, map_bind]
  refine map_eq_bind_congr fun ⟨x, s1⟩ => ?_
  simp only
  rw [hF.resolveRead, map_bind]
  refine map_eq_bind_congr fun ⟨y, s2⟩ => ?_
  simp only
  rw [hF.resolveWriteAddr]
  refine map_eq_bind_congr fun d => map_eq_bind_congr fun r => ?_
  rw [hF.memWrite, map_bind]
  refine map_eq_bind_congr fun s3 => ?_
  rw [hF.fallThrough]
  exact map_eq_bind_congr fun n => rfl

theorem Blind.jumpStage (taken : Atom → Bool) (w : Atom) (a t : Param) (s : State) :
    jumpStage taken w a t (F s) = (jumpStage taken w a t s).map (Ending.mapCopy F) := by
  unfold Machine.jumpStage
  rw [hF.fetched, hF.resolveRead, map_bind]
  refine map_eq_bind_congr fun ⟨x, s1⟩ => ?_
  simp only
  rw [hF.resolveRead, map_bind]
  refine map_eq_bind_congr fun ⟨y, s2⟩ => ?_
  simp only
  split
  · rfl
  · rw [hF.fallThrough]
    exact map_eq_bind_congr fun n => rfl

/-- Input also takes the head of the input queue. -/
theorem Blind.inputStage (hq : ∀ s, (F s).popInput? = s.popInput?.map fun r => (r.1, F r.2)) (w : Atom) (c : Param)
    (s : State) : inputStage w c (F s) = (inputStage w c s).map (Ending.mapCopy F) := by
  unfold Machine.inputStage
  rw [hF.fetched, hF.resolveWriteAddr, hq]
  refine map_eq_bind_congr fun d => ?_
  cases (s.fetched 2).popInput? with
  | none => rfl
  | some r =>
    obtain ⟨v, s1⟩ := r
    simp only [Option.map_some]
    rw [hF.memWrite, map_bind]
    refine map_eq_bind_congr fun s2 => ?_
    rw [hF.fallThrough]
    exact map_eq_bind_congr fun n => rfl

/-- Output also appends to the output queue. -/
theorem Blind.outputStage (hq : ∀ s v, F (s.pushOutput v) = (F s).pushOutput v) (w : Atom) (a : Param) (s : State) :
    outputStage w a (F s) = (outputStage w a s).map (Ending.mapCopy F) := by
  unfold Machine.outputStage
  rw [hF.fetched, hF.resolveRead, map_bind]
  refine map_eq_bind_congr fun ⟨x, s1⟩ => ?_
  simp only
  rw [hF.fallThrough]
  exact map_eq_bind_congr fun n => by simp only [Except.map, Ending.mapCopy, hq]

/-- AdjustRelativeBase also writes `rb`. -/
theorem Blind.adjustStage (hrb : ∀ s v, F (s.setRb v) = (F s).setRb v) (w : Atom) (a : Param) (s : State) :
    adjustStage w a (F s) = (adjustStage w a s).map (Ending.mapCopy F) := by
  unfold Machine.adjustStage
  rw [hF.fetched, hF.resolveRead, map_bind]
  refine map_eq_bind_congr fun ⟨x, s1⟩ => ?_
  simp only [hF.rb]
  refine map_eq_bind_congr fun r => ?_
  rw [hF.fallThrough]
  exact map_eq_bind_congr fun n => by simp only [Except.map, Ending.mapCopy, hrb]

end Operations

/-- Fetch sees the tape, `ip` and `MEM_LIMIT`, and nothing else. -/
theorem fetchInstr_congr {s t : State} (hm : t.mem = s.mem) (hi : t.ip = s.ip)
    (hl : t.cfg.memLimit = s.cfg.memLimit) : fetchInstr t = fetchInstr s := by
  have hlim : ∀ a, limitAdmits t.cfg a = limitAdmits s.cfg a := fun a => by simp only [limitAdmits, hl]
  have hacc : ∀ v kind, accessFailure t v kind = accessFailure s v kind := fun v kind => by
    simp only [accessFailure, hlim]
  have hchecks : fetchChecks t = fetchChecks s := by
    simp only [fetchChecks, paramChecks, hm, hi, hacc]
  cases h : fetchInstr s with
  | error k => rw [(fetchInstr_raises t k), hchecks, ← fetchInstr_raises s k, h]
  | ok i =>
    rw [fetchInstr_eq_ok] at h ⊢
    simpa only [hm, hi, hlim, Accessible] using h

end Sys2Proof.Machine
end

