-- ==== Sys2Proof/Laws/Decode.lean ====
section
/-! SUPPORT. Everything the decoder of an instruction word can answer, said once. -/

namespace Sys2Proof

open Sys2Proof.Machine

theorem modeOfDigit_eq_ok {g : Fin 10} {m : Mode} : modeOfDigit g = .ok m ↔ g.val = m.digit := by
  revert g
  cases m <;> decide

theorem modeOfDigit_eq_error {g : Fin 10} {k : ErrorKind} :
    modeOfDigit g = .error k ↔ 2 < g.val ∧ k = .badParameterMode g := by
  rcases g with ⟨_ | _ | _ | n, h⟩
  · simp [modeOfDigit]
  · simp [modeOfDigit]
  · simp [modeOfDigit]
  · have e : modeOfDigit ⟨n + 3, h⟩ = .error (.badParameterMode ⟨n + 3, h⟩) := by
      have : ∀ g : Fin 10, 2 < g.val → modeOfDigit g = .error (.badParameterMode g) := by decide
      exact this _ (by simp)
    rw [e]
    simp [eq_comm]

/-- A word decodes exactly when it is non-negative, its opcode digits name a row, its mode digits are modes, it has no
digit beyond the arity, and its write parameter, if any, is not Immediate. -/
theorem decodeWord_eq_ok {w : Atom} {h : Header} :
    decodeWord w = .ok h ↔
      0 ≤ w.toInt ∧ rowOfDigits? (w.toNat % 100) = some h.row ∧
        (digit 2 w.toNat).val = h.m1.digit ∧ (digit 3 w.toNat).val = h.m2.digit ∧
          (digit 4 w.toNat).val = h.m3.digit ∧ w.toNat / (100 * 10 ^ h.row.arity) = 0 ∧ h.writesImmediate = false := by
  unfold decodeWord
  split
  · next hn => simp; omega
  · next hn =>
    cases hr : rowOfDigits? (w.toNat % 100) with
    | none => simp
    | some row =>
      simp only [bind_eq_ok, modeOfDigit_eq_ok]
      constructor
      · rintro ⟨m1, h1, m2, h2, m3, h3, he⟩
        split at he
        · cases he
        · next hx =>
          split at he
          · cases he
          · next hw =>
            obtain rfl := Except.ok.inj he
            exact ⟨by omega, rfl, h1, h2, h3, by simpa using hx, by simpa using hw⟩
      · rintro ⟨h0, hrow, h1, h2, h3, hx, hw⟩
        obtain rfl := Option.some.inj hrow
        refine ⟨h.m1, h1, h.m2, h2, h.m3, h3, ?_⟩
        rw [if_neg (by simpa using hx), if_neg (by simpa using hw)]

/-- The errors of the decoder, in the order of its checks (spec/30_encoding.md R64). -/
theorem decodeWord_eq_error {w : Atom} {k : ErrorKind} :
    decodeWord w = .error k ↔
      (w.toInt < 0 ∧ k = .unknownOpcode w) ∨
        (0 ≤ w.toInt ∧ rowOfDigits? (w.toNat % 100) = none ∧ k = .unknownOpcode w) ∨
          (0 ≤ w.toInt ∧ ∃ row, rowOfDigits? (w.toNat % 100) = some row ∧
            ((2 < (digit 2 w.toNat).val ∧ k = .badParameterMode (digit 2 w.toNat)) ∨
              ((digit 2 w.toNat).val ≤ 2 ∧ 2 < (digit 3 w.toNat).val ∧ k = .badParameterMode (digit 3 w.toNat)) ∨
                ((digit 2 w.toNat).val ≤ 2 ∧ (digit 3 w.toNat).val ≤ 2 ∧ 2 < (digit 4 w.toNat).val ∧
                  k = .badParameterMode (digit 4 w.toNat)) ∨
                  ∃ m1 m2 m3 : Mode, (digit 2 w.toNat).val = m1.digit ∧ (digit 3 w.toNat).val = m2.digit ∧
                    (digit 4 w.toNat).val = m3.digit ∧
                      ((w.toNat / (100 * 10 ^ row.arity) ≠ 0 ∧ k = .malformedInstruction w) ∨
                        (w.toNat / (100 * 10 ^ row.arity) = 0 ∧ (Header.mk row m1 m2 m3).writesImmediate = true ∧
                          k = .badParameterMode 1)))) := by
  have hm : ∀ m : Mode, m.digit ≤ 2 := by intro m; cases m <;> decide
  unfold decodeWord
  split
  · next hn =>
    have h0 : ¬0 ≤ w.toInt := by omega
    simp only [Except.error.injEq, hn, h0, true_and, false_and, or_false]
    exact eq_comm
  · next hn =>
    have h0 : 0 ≤ w.toInt := by omega
    cases hr : rowOfDigits? (w.toNat % 100) with
    | none =>
      simp only [Except.error.injEq, hn, h0, true_and, false_and, or_false, false_or, reduceCtorEq, exists_false]
      exact eq_comm
    | some row =>
      simp only [bind_eq_error, modeOfDigit_eq_ok, modeOfDigit_eq_error, hn, h0, true_and, false_and, false_or,
        Option.some.injEq, exists_eq_left', reduceCtorEq]
      constructor
      · rintro (h | ⟨m1, h1, h | ⟨m2, h2, h | ⟨m3, h3, h⟩⟩⟩)
        · exact .inl h
        · exact .inr (.inl ⟨h1 ▸ hm m1, h⟩)
        · exact .inr (.inr (.inl ⟨h1 ▸ hm m1, h2 ▸ hm m2, h⟩))
        · refine .inr (.inr (.inr ⟨m1, m2, m3, h1, h2, h3, ?_⟩))
          split at h
          · next hx => exact .inl ⟨hx, (Except.error.inj h).symm⟩
          · next hx =>
            split at h
            · next hw => exact .inr ⟨by simpa using hx, hw, (Except.error.inj h).symm⟩
            · cases h
      · have hex : ∀ {g : Fin 10}, g.val ≤ 2 → ∃ m : Mode, g.val = m.digit := by
          intro g hg
          rcases g with ⟨_ | _ | _ | n, _⟩
          · exact ⟨.position, rfl⟩
          · exact ⟨.immediate, rfl⟩
          · exact ⟨.relative, rfl⟩
          · simp at hg
        rintro (h | ⟨h1, h⟩ | ⟨h1, h2, h⟩ | ⟨m1, m2, m3, h1, h2, h3, h⟩)
        · exact .inl h
        · obtain ⟨m1, h1⟩ := hex h1
          exact .inr ⟨m1, h1, .inl h⟩
        · obtain ⟨m1, h1⟩ := hex h1
          obtain ⟨m2, h2⟩ := hex h2
          exact .inr ⟨m1, h1, .inr ⟨m2, h2, .inl h⟩⟩
        · refine .inr ⟨m1, h1, .inr ⟨m2, h2, .inr ⟨m3, h3, ?_⟩⟩⟩
          rcases h with ⟨hx, rfl⟩ | ⟨hx, hw, rfl⟩
          · rw [if_pos hx]
          · rw [if_neg (by simpa using hx), if_pos hw]

/-- The rows the opcode digits name are the rows of the map. -/
theorem rowOfDigits?_eq_some {d : Nat} {row : OpcodeRow} :
    rowOfDigits? d = some row ↔ row ∈ opcodeMap ∧ row.digits = d := by
  constructor
  · intro h
    exact ⟨List.mem_of_find?_eq_some h, by simpa using List.find?_some h⟩
  · rintro ⟨hm, rfl⟩
    fin_cases hm <;> rfl

theorem rowOfDigits?_eq_none {d : Nat} : rowOfDigits? d = none ↔ d ∉ [1, 2, 3, 4, 5, 6, 7, 8, 9, 99] := by
  rw [show [1, 2, 3, 4, 5, 6, 7, 8, 9, 99] = opcodeMap.map OpcodeRow.digits from rfl]
  simp [rowOfDigits?]

/-- A list decodes exactly when its head decodes and as many atoms follow as the arity says. -/
theorem decode_cons_eq_ok {w : Atom} {ws rest : List Atom} {i : Instr} :
    decode (w :: ws) = .ok (i, rest) ↔
      ∃ h, decodeWord w = .ok h ∧ h.row.arity ≤ ws.length ∧ i = h.instr (ws.take h.row.arity) ∧
        rest = ws.drop h.row.arity := by
  have e : decode (w :: ws) = match decodeWord w with
      | .error k => .error (.raised k)
      | .ok h => if ws.length < h.row.arity then .error .truncated
        else .ok (h.instr (ws.take h.row.arity), ws.drop h.row.arity) := rfl
  rw [e]
  cases decodeWord w with
  | error k => simp
  | ok h =>
    by_cases hl : ws.length < h.row.arity
    · simp [hl]
    · simp [hl, Nat.not_lt.1 hl, eq_comm]

end Sys2Proof
end

