-- ==== Sys2Proof/Laws/PerInstr.lean ====
section
/-! SUPPORT. Statements about every instruction as syntax, one lemma per constructor. -/

namespace Sys2Proof.Laws.EncodedWord

/-- What a packed word of opcode digits `d` and arity `k` looks like as an atom: non-negative, `d` in the ones and tens
places, no digit beyond the arity. -/
abbrev Packs (n d k : Nat) : Prop :=
  0 ≤ (BitVec.ofNat 64 n).toInt ∧ (BitVec.ofNat 64 n).toNat % 100 = d ∧ (BitVec.ofNat 64 n).toNat / (100 * 10 ^ k) = 0

/-- What the encoder puts in an instruction word (spec/30_encoding.md R61, R62, R81): a non-negative atom, the opcode's
digits in the ones and tens places, and no digit beyond the opcode's arity. -/
def Statement (i : Instr) : Prop :=
  0 ≤ (encodeWord i).toInt ∧ (encodeWord i).toNat % 100 = i.opcode.digits ∧
    (encodeWord i).toNat / (100 * 10 ^ i.params.length) = 0

theorem packs_one {d : Nat} (hd : d ∈ [3, 4, 9]) (a : Mode) : Packs (packWord d [a]) d 1 := by
  fin_cases hd <;> cases a <;> decide

theorem packs_two {d : Nat} (hd : d ∈ [5, 6]) (a b : Mode) : Packs (packWord d [a, b]) d 2 := by
  fin_cases hd <;> cases a <;> cases b <;> decide

theorem packs_three {d : Nat} (hd : d ∈ [1, 2, 7, 8]) (a b c : Mode) : Packs (packWord d [a, b, c]) d 3 := by
  fin_cases hd <;> cases a <;> cases b <;> cases c <;> decide

theorem add (a b c : Param) : Statement (.add a b c) := packs_three (d := 1) (by decide) a.mode b.mode c.mode

theorem mul (a b c : Param) : Statement (.mul a b c) := packs_three (d := 2) (by decide) a.mode b.mode c.mode

theorem input (c : Param) : Statement (.input c) := packs_one (d := 3) (by decide) c.mode

theorem output (a : Param) : Statement (.output a) := packs_one (d := 4) (by decide) a.mode

theorem jumpIfTrue (a t : Param) : Statement (.jumpIfTrue a t) := packs_two (d := 5) (by decide) a.mode t.mode

theorem jumpIfFalse (a t : Param) : Statement (.jumpIfFalse a t) := packs_two (d := 6) (by decide) a.mode t.mode

theorem lessThan (a b c : Param) : Statement (.lessThan a b c) := packs_three (d := 7) (by decide) a.mode b.mode c.mode

theorem equals (a b c : Param) : Statement (.equals a b c) := packs_three (d := 8) (by decide) a.mode b.mode c.mode

theorem adjustRelativeBase (a : Param) : Statement (.adjustRelativeBase a) := packs_one (d := 9) (by decide) a.mode

theorem halt : Statement .halt := ⟨by decide, by decide, by decide⟩

end Sys2Proof.Laws.EncodedWord
end

