-- ==== Sys2Proof/Laws/Settle.lean ====
section
/-! SUPPORT. How a step ends and what it does to the tape, said once for all instructions, and what the instruction that a
step runs is. -/

namespace Sys2Proof.Machine

/-! ### The ending of a step -/

theorem exec_next {i : Instr} {s t : State} (h : exec i s = .next t) : t = s.settle (stageOf i s) := by
  rw [exec_eq_settle] at h
  exact (Host.Outcome.next.inj h).symm

/-- A step that leaves the status Ready committed the working copy of its execute stage. -/
theorem settle_ready {s : State} {r : Except ErrorKind Ending} (h : (s.settle r).status = .ready) :
    ∃ copy n, r = .ok (.advance copy n) ∧ s.settle r = s.commit copy n := by
  rcases r with k | ⟨copy, n⟩ | _ | _
  · cases h
  · exact ⟨copy, n, rfl, rfl⟩
  · cases h
  · cases h

/-- Any other ending writes the latch alone. -/
theorem settle_unready {s : State} {r : Except ErrorKind Ending} (h : (s.settle r).status ≠ .ready) :
    s.settle r = { s with status := (s.settle r).status } := by
  rcases r with k | ⟨copy, n⟩ | _ | _
  · rfl
  · exact absurd rfl h
  · rfl
  · rfl

/-- What a step answered, in terms of `settle`: the form to take a step apart with. -/
theorem step_form {s t : State} (h : step s = .next t) :
    (s.status.terminal = true ∧ t = s) ∨
      (s.status.terminal = false ∧ ∃ k, fetchInstr s = .error k ∧ t = s.raise k) ∨
        (s.status.terminal = false ∧ ∃ i, fetchInstr s = .ok i ∧ t = s.settle (stageOf i s)) := by
  rcases step_cases s with ⟨ht, e⟩ | ⟨ht, k, hk, e⟩ | ⟨ht, i, hi, e⟩
  · rw [e] at h; exact .inl ⟨ht, (Host.Outcome.next.inj h).symm⟩
  · rw [e] at h; exact .inr (.inl ⟨ht, k, hk, (Host.Outcome.next.inj h).symm⟩)
  · rw [e] at h; exact .inr (.inr ⟨ht, i, hi, exec_next h⟩)

/-- `stateAfterStep` is what `step` answers. -/
theorem step_eq_stateAfterStep (s : State) : step s = .next (stateAfterStep s) := by
  unfold stateAfterStep
  rcases step_cases s with ⟨-, h⟩ | ⟨-, k, -, h⟩ | ⟨-, i, -, h⟩
  · rw [h]
  · rw [h]
  · rw [h, exec_eq_settle]

/-! ### Which stage ends how -/

theorem stageOf_eq_block {i : Instr} {s : State} (h : stageOf i s = .ok .block) : ∃ c, i = .input c := by
  cases i with
  | add => obtain ⟨-, -, -, _, _, _, -, -, -, -, -, e⟩ := binaryStage_eq_ok.1 h; cases e
  | mul => obtain ⟨-, -, -, _, _, _, -, -, -, -, -, e⟩ := binaryStage_eq_ok.1 h; cases e
  | input c => exact ⟨c, rfl⟩
  | output => obtain ⟨-, _, _, -, -, e⟩ := outputStage_eq_ok.1 h; cases e
  | jumpIfTrue => obtain ⟨-, -, _, _, -, -, e⟩ := jumpStage_eq_ok.1 h; cases e
  | jumpIfFalse => obtain ⟨-, -, _, _, -, -, e⟩ := jumpStage_eq_ok.1 h; cases e
  | lessThan => obtain ⟨-, -, -, _, _, _, -, -, -, -, -, e⟩ := binaryStage_eq_ok.1 h; cases e
  | equals => obtain ⟨-, -, -, _, _, _, -, -, -, -, -, e⟩ := binaryStage_eq_ok.1 h; cases e
  | adjustRelativeBase => obtain ⟨-, _, _, -, -, e⟩ := adjustStage_eq_ok.1 h; cases e
  | halt => cases h

theorem stageOf_eq_halt {i : Instr} {s : State} (h : stageOf i s = .ok .halt) : i = .halt := by
  cases i with
  | add => obtain ⟨-, -, -, _, _, _, -, -, -, -, -, e⟩ := binaryStage_eq_ok.1 h; cases e
  | mul => obtain ⟨-, -, -, _, _, _, -, -, -, -, -, e⟩ := binaryStage_eq_ok.1 h; cases e
  | input => obtain ⟨-, _, _, ⟨-, e⟩ | ⟨_, _, _, -, -, -, -, e⟩⟩ := inputStage_eq_ok.1 h <;> cases e
  | output => obtain ⟨-, _, _, -, -, e⟩ := outputStage_eq_ok.1 h; cases e
  | jumpIfTrue => obtain ⟨-, -, _, _, -, -, e⟩ := jumpStage_eq_ok.1 h; cases e
  | jumpIfFalse => obtain ⟨-, -, _, _, -, -, e⟩ := jumpStage_eq_ok.1 h; cases e
  | lessThan => obtain ⟨-, -, -, _, _, _, -, -, -, -, -, e⟩ := binaryStage_eq_ok.1 h; cases e
  | equals => obtain ⟨-, -, -, _, _, _, -, -, -, -, -, e⟩ := binaryStage_eq_ok.1 h; cases e
  | adjustRelativeBase => obtain ⟨-, _, _, -, -, e⟩ := adjustStage_eq_ok.1 h; cases e
  | halt => rfl

/-! ### What a committed stage does to the tape -/

/-- An instruction without a write parameter only grows it. -/
theorem stageOf_grows {i : Instr} {s copy : State} {n : Atom} (hw : writeParam? i = none)
    (h : stageOf i s = .ok (.advance copy n)) : ∃ l, copy.mem = s.mem.growTo l := by
  cases i with
  | add => cases hw
  | mul => cases hw
  | input => cases hw
  | output => obtain ⟨-, _, _, -, -, e⟩ := outputStage_eq_ok.1 h; cases e; exact ⟨_, rfl⟩
  | jumpIfTrue => obtain ⟨-, -, _, _, -, -, e⟩ := jumpStage_eq_ok.1 h; cases e; exact ⟨_, rfl⟩
  | jumpIfFalse => obtain ⟨-, -, _, _, -, -, e⟩ := jumpStage_eq_ok.1 h; cases e; exact ⟨_, rfl⟩
  | lessThan => cases hw
  | equals => cases hw
  | adjustRelativeBase => obtain ⟨-, _, _, -, -, e⟩ := adjustStage_eq_ok.1 h; cases e; exact ⟨_, rfl⟩
  | halt => cases h

/-- An instruction with a write parameter grows it and then stores its value at the effective address, which it may
access. -/
theorem stageOf_stores {i : Instr} {c : Param} {s copy : State} {n : Atom} (hw : writeParam? i = some c)
    (h : stageOf i s = .ok (.advance copy n)) :
    ∃ (l : Nat) (d v : Atom), d.toInt = effectiveAddress s c ∧ 0 ≤ d.toInt ∧ limitAdmits s.cfg d.toNat = true ∧
      storedValue s i = some v.toInt ∧ copy.mem = (s.mem.growTo l).store d.toNat v := by
  have bin : ∀ f w a b c', c' = c → storedValue s i = some (f (operandValue s a) (operandValue s b)) →
      binaryStage f w a b c' s = .ok (.advance copy n) →
        ∃ (l : Nat) (d v : Atom), d.toInt = effectiveAddress s c ∧ 0 ≤ d.toInt ∧ limitAdmits s.cfg d.toNat = true ∧
          storedValue s i = some v.toInt ∧ copy.mem = (s.mem.growTo l).store d.toNat v := by
    rintro f w a b _ rfl hv hb
    obtain ⟨-, -, -, d, v, _, hd, hr, h0, hl, -, e⟩ := binaryStage_eq_ok.1 hb
    cases e
    exact ⟨_, d, v, hd, h0, hl, by rw [hv, hr], rfl⟩
  cases i with
  | add => exact bin _ _ _ _ _ (Option.some.inj hw) rfl h
  | mul => exact bin _ _ _ _ _ (Option.some.inj hw) rfl h
  | lessThan => exact bin _ _ _ _ _ (Option.some.inj hw) rfl h
  | equals => exact bin _ _ _ _ _ (Option.some.inj hw) rfl h
  | input c' =>
    obtain rfl := Option.some.inj hw
    obtain ⟨-, d, hd, ⟨-, e⟩ | ⟨v, rest, _, hq, h0, hl, -, e⟩⟩ := inputStage_eq_ok.1 h <;> cases e
    exact ⟨_, d, v, hd, h0, hl, by simp [storedValue, hq], rfl⟩
  | output => cases hw
  | jumpIfTrue => cases hw
  | jumpIfFalse => cases hw
  | adjustRelativeBase => cases hw
  | halt => cases hw

/-- A change that fetch and the resolver cannot see, and that commutes with the queues and with `rb`, passes through every
execute stage. -/
theorem Blind.stageOf {F : State → State} (hF : Blind F)
    (hin : ∀ s, (F s).popInput? = s.popInput?.map fun r => (r.1, F r.2))
    (hout : ∀ s v, F (s.pushOutput v) = (F s).pushOutput v) (hrb : ∀ s v, F (s.setRb v) = (F s).setRb v)
    (i : Instr) (s : State) : stageOf i (F s) = (stageOf i s).map (Ending.mapCopy F) := by
  cases i with
  | add a b c => exact hF.binaryStage _ _ _ _ _ _
  | mul a b c => exact hF.binaryStage _ _ _ _ _ _
  | input c => exact hF.inputStage hin _ _ _
  | output a => exact hF.outputStage hout _ _ _
  | jumpIfTrue a t => exact hF.jumpStage _ _ _ _ _
  | jumpIfFalse a t => exact hF.jumpStage _ _ _ _ _
  | lessThan a b c => exact hF.binaryStage _ _ _ _ _ _
  | equals a b c => exact hF.binaryStage _ _ _ _ _ _
  | adjustRelativeBase a => exact hF.adjustStage hrb _ _ _
  | halt => rfl

/-! ### The instruction a word makes -/

theorem arity_of_decodeWord {w : Atom} {h : Header} (hd : decodeWord w = .ok h) (ps : List Atom) :
    (h.instr ps).params.length = h.row.arity ∧ h.row.arity ≤ 3 := by
  obtain ⟨-, hr, -⟩ := decodeWord_eq_ok.1 hd
  obtain ⟨hm, -⟩ := rowOfDigits?_eq_some.1 hr
  obtain ⟨row, m1, m2, m3⟩ := h
  simp only at *
  fin_cases hm <;> exact ⟨rfl, by decide⟩

theorem limitAdmits_mono {cfg : Config} {a b : Nat} (h : limitAdmits cfg b = true) (hab : a ≤ b) :
    limitAdmits cfg a = true := by
  unfold limitAdmits at *
  split <;> simp_all
  omega

/-- A word that decodes is packed from its fields (spec/30_encoding.md R61), and the modes beyond the arity are Position
(R66). -/
theorem word_of_decodeWord {w : Atom} {h : Header} (hd : decodeWord w = .ok h) :
    h.row ∈ opcodeMap ∧
      w = BitVec.ofNat 64 (h.row.digits + 100 * h.m1.digit + 1000 * h.m2.digit + 10000 * h.m3.digit) ∧
        (h.row.arity < 3 → h.m3 = .position) ∧ (h.row.arity < 2 → h.m2 = .position) ∧
          (h.row.arity < 1 → h.m1 = .position) := by
  obtain ⟨h0, hr, h1, h2, h3, hx, hw⟩ := decodeWord_eq_ok.1 hd
  obtain ⟨hmem, hdig⟩ := rowOfDigits?_eq_some.1 hr
  simp only [digit, Fin.ofNat] at h1 h2 h3
  have hz : ∀ m : Mode, m.digit = 0 → m = .position := by intro m; cases m <;> decide
  obtain ⟨⟨d, o, ar, wp⟩, m1, m2, m3⟩ := h
  simp only at *
  have har : ar = 0 ∨ ar = 1 ∨ ar = 2 ∨ ar = 3 := by
    fin_cases hmem <;> simp_all
  have hword : ∀ n : Nat, w.toNat = n → w = BitVec.ofNat 64 n := by rintro _ rfl; simp
  refine ⟨hmem, hword _ ?_, fun ha => hz _ ?_, fun ha => hz _ ?_, fun ha => hz _ ?_⟩ <;>
    rcases har with rfl | rfl | rfl | rfl <;> omega

/-- The instruction a word makes is well-formed, and its word is that word: the `raw_word` of an error is the word fetched
(log entry 7). -/
theorem instr_of_decodeWord {w : Atom} {h : Header} (hd : decodeWord w = .ok h) (ps : List Atom) :
    (h.instr ps).wellFormed = true ∧ encodeWord (h.instr ps) = w := by
  obtain ⟨hmem, hword, a3, a2, a1⟩ := word_of_decodeWord hd
  obtain ⟨-, -, -, -, -, -, himm⟩ := decodeWord_eq_ok.1 hd
  obtain ⟨row, m1, m2, m3⟩ := h
  simp only at *
  subst hword
  fin_cases hmem <;> simp at a1 a2 a3 <;> (try subst a1) <;> (try subst a2) <;> (try subst a3) <;>
    simp [Header.instr, Instr.wellFormed, Param.writable, Header.writesImmediate, Header.modeOf, encodeWord,
      Instr.opcode, Opcode.digits, Instr.params, packWord, Mode.digit] at himm ⊢ <;> try exact himm

/-- The instruction a step runs is well-formed, and its word is the cell at `ip`. -/
theorem word_of_fetchInstr {s : State} {i : Instr} (h : fetchInstr s = .ok i) :
    i.wellFormed = true ∧ encodeWord i = s.mem.get s.ip.toNat := by
  obtain ⟨-, -, hd, hdec, -, rfl⟩ := fetchInstr_eq_ok.1 h
  exact instr_of_decodeWord hdec _

end Sys2Proof.Machine
end

