-- ==== Sys2Proof/Tests/Slice0.lean ====
section
/-! SUPPORT. The model's own tests, and a witness for every statement that has hypotheses. Every expected value comes from
spec/95_test_vectors.md (the vector is named in the comment before the test), or from the rule named there. -/

namespace Sys2Proof.Tests

open Sys2Proof.Machine

/-! ### Helpers -/

/-- An integer as an atom. -/
def atom (v : Int) : Atom := BitVec.ofInt 64 v

/-- The greatest atom. -/
def top : Int := 9223372036854775807

def pos (v : Int) : Param := ⟨.position, atom v⟩
def imm (v : Int) : Param := ⟨.immediate, atom v⟩
def rel (v : Int) : Param := ⟨.relative, atom v⟩

/-- A fresh core that holds a program, with input queued and registers set. -/
def boot (p : List Int) (input : List Int := []) (rb : Int := 0) (ip : Int := 0) (limit : Option Nat := none) : State :=
  { fromProgram { memLimit := limit, outputSuspends := false } (p.map atom) with
    inq := input.map atom, rb := atom rb, ip := atom ip }

/-- The state after one step of a core. -/
abbrev after (s : State) : State := stateAfterStep s

/-- Its tape, as integers. -/
def tape (s : State) : List Int := (memoryView s).map BitVec.toInt

/-- The same core with another status. -/
def latched (s : State) (st : Status) : State := { s with status := st }

/-- The same core with `OUTPUT_SUSPENDS` set. -/
def suspending (s : State) : State := { s with cfg := { s.cfg with outputSuspends := true } }

/-! ### Decoding: words written out digit by digit, `C B A` then the two opcode digits (R61, R62, R65) -/

-- 0 1 0 02: the word of TM7.
theorem test_decode_mul : decode [1002, 3, 2, 3, 99] = .ok (.mul (pos 3) (imm 2) (pos 3), [99]) := by decide
-- 2 2 2 01: the word of TA3.
theorem test_decode_add : decode [22201, 0, 1, 2, 99] = .ok (.add (rel 0) (rel 1) (rel 2), [99]) := by decide
-- 2 03: the word of TI2; 3: the word of TI1.
theorem test_decode_input :
    decode [203, 0] = .ok (.input (rel 0), []) ∧ decode [3, 3] = .ok (.input (pos 3), []) := by decide
-- 1 04 with a negative parameter: TO1; 2 04: TO3.
theorem test_decode_output :
    decode [104, atom (-3)] = .ok (.output (imm (-3)), []) ∧ decode [204, 4] = .ok (.output (rel 4), []) := by decide
-- 1 1 05: TJ1. 05: TJ9.
theorem test_decode_jumpIfTrue :
    decode [1105, 7, 4] = .ok (.jumpIfTrue (imm 7) (imm 4), []) ∧
      decode [5, 0, atom (-2)] = .ok (.jumpIfTrue (pos 0) (pos (-2)), []) := by decide
-- 1 0 06: step 5 of V7.
theorem test_decode_jumpIfFalse : decode [1006, 101, 0] = .ok (.jumpIfFalse (pos 101) (imm 0), []) := by decide
-- 1 0 07: P3.
theorem test_decode_lessThan : decode [1007, 52, 3, 53] = .ok (.lessThan (pos 52) (imm 3) (pos 53), []) := by decide
-- 2 1 2 08: TC7.
theorem test_decode_equals : decode [21208, 0, 9, 1] = .ok (.equals (rel 0) (imm 9) (rel 1), []) := by decide
-- 2 09: TR2. 1 09 with a negative parameter: TR1.
theorem test_decode_adjustRelativeBase :
    decode [209, 0] = .ok (.adjustRelativeBase (rel 0), []) ∧
      decode [109, atom (-3)] = .ok (.adjustRelativeBase (imm (-3)), []) := by decide
-- 99: TH1.
theorem test_decode_halt : decode [99, 1, 2] = .ok (.halt, [1, 2]) := by decide

-- V8, TD1, TD3, TD4: unknown opcodes, a negative word among them.
theorem test_decode_unknown :
    decodeWord 77 = .error (.unknownOpcode 77) ∧ decodeWord 0 = .error (.unknownOpcode 0) ∧
      decodeWord (atom (-1)) = .error (.unknownOpcode (atom (-1))) ∧
        decodeWord (atom (-99)) = .error (.unknownOpcode (atom (-99))) := by decide
-- TA9, TA10, TI4: bad modes.
theorem test_decode_badMode :
    decodeWord 11101 = .error (.badParameterMode 1) ∧ decodeWord 401 = .error (.badParameterMode 4) ∧
      decodeWord 103 = .error (.badParameterMode 1) := by decide
-- TI5, TO4, TH2, TH3, TD5: digits beyond the arity.
theorem test_decode_malformed :
    decodeWord 1103 = .error (.malformedInstruction 1103) ∧ decodeWord 1104 = .error (.malformedInstruction 1104) ∧
      decodeWord 199 = .error (.malformedInstruction 199) ∧ decodeWord 1099 = .error (.malformedInstruction 1099) ∧
        decodeWord 100001 = .error (.malformedInstruction 100001) := by decide

-- The encodings written in TA3, TI2 and TC7.
theorem test_encode :
    encode (.add (rel 0) (rel 1) (rel 2)) = [22201, 0, 1, 2] ∧ encode (.input (rel 0)) = [203, 0] ∧
      encode (.equals (rel 0) (imm 9) (rel 1)) = [21208, 0, 9, 1] ∧ encode .halt = [99] := by decide

-- R80: P3, P4, V7 and TR1 write these, and P1 its line 10.
theorem test_assembler_text :
    [(Instr.output (rel (-1))).toAsm, (Instr.input (rel 2)).toAsm, (Instr.lessThan (pos 52) (imm 3) (pos 53)).toAsm,
      Instr.halt.toAsm, .atoms [.num 3], .label "loop", .jmp ⟨.immediate, false, .label "loop"⟩].map AsmLine.text =
      ["out [rb-1]", "in [rb+2]", "lt [52], #3, [53]", "hlt", ".atom 3", "loop:", "jmp #loop"] := by decide

-- P1 with its two addresses as labels: the encoding given there.
theorem test_assembler_P1 :
    assemble
      [.label "start", .core .output [⟨.position, false, .label "count"⟩],
        .core .add [⟨.position, false, .label "count"⟩, ⟨.immediate, false, .num (atom (-1))⟩, ⟨.position, false, .label "count"⟩],
        .core .jumpIfTrue [⟨.position, false, .label "count"⟩, ⟨.immediate, false, .label "start"⟩],
        .core .halt [], .comment "the counter", .label "count", .atoms [.num 3]] =
      some ([4, 10, 1001, 10, -1, 10, 1005, 10, 0, 99, 3].map atom) := by decide

-- The examples of R81 and R82, and a wrong number of operands.
theorem test_assembler_lines :
    assemble [.core .output [⟨.relative, true, .num 1⟩], .jmp ⟨.immediate, false, .num 7⟩,
        .mov ⟨.immediate, false, .num 5⟩ ⟨.position, false, .num 9⟩, .nop] =
      some [204, atom (-1), 1105, 1, 7, 1101, 5, 0, 9, 1106, 1, 0] ∧ assemble [.core .halt [⟨.position, false, .num 0⟩]] = none := by
  decide

-- The ten rows of spec/opcode_table.json, each by its "match" word.
theorem test_decodeTableWord :
    decodeTableWord 8 1 = some (.add (pos 0) (pos 0) (pos 0)) ∧ decodeTableWord 8 2 = some (.mul (pos 0) (pos 0) (pos 0)) ∧
      decodeTableWord 8 3 = some (.input (pos 0)) ∧ decodeTableWord 8 4 = some (.output (pos 0)) ∧
        decodeTableWord 8 5 = some (.jumpIfTrue (pos 0) (pos 0)) ∧
          decodeTableWord 8 6 = some (.jumpIfFalse (pos 0) (pos 0)) ∧
            decodeTableWord 8 7 = some (.lessThan (pos 0) (pos 0) (pos 0)) ∧
              decodeTableWord 8 8 = some (.equals (pos 0) (pos 0) (pos 0)) ∧
                decodeTableWord 8 9 = some (.adjustRelativeBase (pos 0)) ∧ decodeTableWord 8 99 = some .halt ∧
                  decodeTableWord 8 10 = none := by decide
-- Two atoms, the first 104, the second 7, in 128 bits.
theorem test_decodeTableWord_params : decodeTableWord 128 (7 * 2 ^ 64 + 104) = some (.output (imm 7)) := by decide

-- From reset, the next step fetches and runs the word placed: `add [0], [0], [0]` doubles its own word (V1).
theorem test_withFetchWord_add : tape (after (State.reset.withFetchWord 256 1)) = [2, 0, 0, 0] := by decide
theorem test_withFetchWord_halt : (after (State.reset.withFetchWord 8 99)).status = .halted := by decide
-- It also replaces a latched terminal status, and an `ip` with no room.
theorem test_withFetchWord_latched :
    (after ((latched (boot [99] [] 0 (top - 1)) .halted).withFetchWord 8 3)).status = .blockedOnInput := by decide

/-! ### Well-formedness: each write parameter in Immediate mode is refused, in any other mode accepted (R67) -/

theorem test_wellFormed_add : (Instr.add (imm 1) (imm 2) (imm 3)).wellFormed = false := by decide
theorem test_wellFormed_mul : (Instr.mul (pos 1) (rel 2) (imm 3)).wellFormed = false := by decide
theorem test_wellFormed_input : (Instr.input (imm 3)).wellFormed = false := by decide
theorem test_wellFormed_lessThan : (Instr.lessThan (pos 1) (pos 2) (imm 3)).wellFormed = false := by decide
theorem test_wellFormed_equals : (Instr.equals (pos 1) (pos 2) (imm 3)).wellFormed = false := by decide
theorem test_wellFormed_accepts :
    (Instr.add (imm 1) (imm 2) (rel 3)).wellFormed = true ∧ (Instr.input (pos 3)).wellFormed = true ∧
      (Instr.output (imm 3)).wellFormed = true := by decide

/-! ### One step of each instruction -/

-- V1: the destination is the instruction's own word.
theorem test_add_V1 :
    tape (after (boot [1, 0, 0, 0, 99])) = [2, 0, 0, 0, 99] ∧ (after (boot [1, 0, 0, 0, 99])).ip = 4 ∧
      (after (boot [1, 0, 0, 0, 99])).tick = 1 := by decide
-- TA6: no wrap.
theorem test_add_TA6 :
    after (boot [1101, 9223372036854775807, 1, 5, 99, 0]) =
      latched (boot [1101, 9223372036854775807, 1, 5, 99, 0]) (.error (.arithmeticOverflow 1101)) := by decide
-- TM7: written over its own parameter word.
theorem test_mul_TM7 : tape (after (boot [1002, 3, 2, 3, 99])) = [1002, 3, 2, 6, 99] := by decide
-- TM6: the product 2^63 does not fit.
theorem test_mul_TM6 :
    (after (boot [1102, -9223372036854775808, -1, 5, 99, 0])).status = .error (.arithmeticOverflow 1102) := by decide
-- TI1.
theorem test_input_TI1 :
    tape (after (boot [3, 3, 99, 0] [42])) = [3, 3, 99, 42] ∧ (after (boot [3, 3, 99, 0] [42])).inq = [] := by decide
-- TI6, TI7: the block comes before the write check; the value is not consumed.
theorem test_input_TI6_TI7 :
    after (boot [3, -1, 99]) = latched (boot [3, -1, 99]) .blockedOnInput ∧
      after (boot [3, -1, 99] [9]) =
        latched (boot [3, -1, 99] [9]) (.error (.outOfBoundsAddress (atom (-1)) .write)) := by decide
-- TO1, V10: growth by a read.
theorem test_output_TO1_V10 :
    (after (boot [104, -3, 99])).outq = [atom (-3)] ∧ (after (boot [4, 10, 99])).outq = [0] ∧
      tape (after (boot [4, 10, 99])) = [4, 10, 99, 0, 0, 0, 0, 0, 0, 0, 0] := by decide
-- TO3, from its second step on.
theorem test_output_TO3 : (after (boot [109, -3, 204, 4, 99] [] (-3) 2)).outq = [atom (-3)] := by decide
-- TJ3: a negative predicate is true. TJ6: a negative target commits.
theorem test_jumpIfTrue_TJ3_TJ6 :
    (after (boot [1105, -1, 4, 99, 104, 1, 99])).ip = 4 ∧ (after (boot [1105, 1, -5])).ip = atom (-5) ∧
      (after (boot [1105, 1, -5])).tick = 1 := by decide
-- TJ9, with a predicate cell that holds 0: the target is read even when the jump is not taken (R150).
theorem test_jumpIfTrue_TJ9 :
    (after (boot [1005, 3, 4, 0])).ip = 3 ∧
      (after (boot [5, 4, -2, 99, 0])).status = .error (.outOfBoundsAddress (atom (-2)) .read) := by decide
-- TJ4, TJ5.
theorem test_jumpIfFalse_TJ4_TJ5 :
    (after (boot [1106, 0, 4, 99, 104, 1, 99])).ip = 4 ∧ (after (boot [1106, 5, 4, 99, 104, 1, 99])).ip = 3 := by decide
-- TC4: signed. TC2.
theorem test_lessThan_TC4_TC2 :
    tape (after (boot [1107, -2, -1, 0, 99])) = [1, -2, -1, 0, 99] ∧
      tape (after (boot [1107, 5, 3, 0, 99])) = [0, 5, 3, 0, 99] := by decide
-- The comparison of R160 is exact at both ends of the range: the difference would not fit an atom.
theorem test_lessThan_ends :
    tape (after (boot [1107, -9223372036854775808, 9223372036854775807, 0, 99])) =
      [1, -9223372036854775808, 9223372036854775807, 0, 99] := by decide
-- TC5, TC6.
theorem test_equals_TC5_TC6 :
    tape (after (boot [1108, -1, -1, 0, 99])) = [1, -1, -1, 0, 99] ∧
      tape (after (boot [1108, 1, 2, 0, 99])) = [0, 1, 2, 0, 99] := by decide
-- TC7, its second step: written over the Halt word.
theorem test_equals_TC7 : tape (after (boot [109, 5, 21208, 0, 9, 1, 99] [] 5 2)) = [109, 5, 21208, 0, 9, 1, 0] := by
  decide
-- TR2, its second step: the operand is resolved against the old `rb`.
theorem test_adjustRelativeBase_TR2 : (after (boot [109, 4, 209, 0, 99, 99] [] 4 2)).rb = 103 := by decide
-- TR3, its second step.
theorem test_adjustRelativeBase_TR3 :
    (after (boot [109, 9223372036854775807, 109, 1, 99] [] top 2)).status = .error (.arithmeticOverflow 109) := by decide
-- TH1, V9: halted for good.
theorem test_halt_TH1_V9 :
    after (boot [99]) = latched (boot [99]) .halted ∧ hostStep (after (boot [99])) = (.halted 0, after (boot [99])) := by
  decide

/-! ### Fetch, limits and the host -/

-- TD2: an empty tape; the failed fetch commits no growth.
theorem test_fetch_TD2 :
    after (boot []) = latched (boot []) (.error (.unknownOpcode 0)) ∧ (after (boot [])).mem.len = 0 := by decide
-- TD6.
theorem test_limit_TD6 :
    after (boot [1101, 1, 1, 100, 99] [] 0 0 (some 50)) =
      latched (boot [1101, 1, 1, 100, 99] [] 0 0 (some 50)) (.error (.memoryLimitExceeded 100)) := by decide
-- V11, TA8: a negative address on either side.
theorem test_negative_V11_TA8 :
    (after (boot [1, -1, 0, 0, 99])).status = .error (.outOfBoundsAddress (atom (-1)) .read) ∧
      (after (boot [1101, 0, 0, -1, 99])).status = .error (.outOfBoundsAddress (atom (-1)) .write) := by decide
-- TI8, its second step: the address of a Relative write overflows before the block.
theorem test_relative_TI8 :
    (after (boot [109, 9223372036854775807, 203, 1, 99] [] top 2)).status = .error (.arithmeticOverflow 203) := by decide
-- TO5.
theorem test_host_TO5 :
    (hostStep (suspending (boot [104, 1, 104, 2, 99]))).1 = .output 1 ∧
      (hostStep (suspending (boot [104, 1, 104, 2, 99]))).2.outq = [1] ∧
        (hostStep (boot [104, 1, 104, 2, 99])).1 = .ready := by decide
-- R110: `add_input`, `take_output` and `memory`.
theorem test_host_queues :
    ((HostAction.addInput 7).perform (boot [99] [1])).2.inq = [1, 7] ∧
      HostAction.takeOutput.perform (after (boot [104, 5, 99])) =
        (.atoms [5], { after (boot [104, 5, 99]) with outq := [] }) ∧
        (HostAction.memory.perform (boot [99, 5])).1 = .atoms [99, 5] := by decide
-- R91, R180: the codes.
theorem test_codes :
    [StepResult.ready, .halted 0, .blockedOnInput 0, .output 0, .error (.unknownOpcode 0)].map StepResult.code =
        [0, 1, 2, 3, 4] ∧
      [ErrorKind.outOfBoundsAddress 0 .read, .badParameterMode 0, .unknownOpcode 0, .malformedInstruction 0,
        .arithmeticOverflow 0, .memoryLimitExceeded 0].map errorCode = [1, 2, 3, 4, 5, 6] := by decide

/-! ### Witnesses: states and operands that meet the hypotheses of each statement together, one for each clause

Each is named after its obligation. `exec_next_of` and `step_next_of` give the next state a hypothesis speaks of. -/

/-- The state after an instruction executed on its own. -/
abbrev ran (i : Instr) (s : State) : State := s.settle (stageOf i s)

theorem exec_next_of (i : Instr) (s : State) : exec i s = .next (ran i s) := exec_eq_settle i s
theorem step_next_of (s : State) : step s = .next (after s) := step_eq_stateAfterStep s

-- The first cell, the last one, and the first past them. An Input that completes after `add_input` writes address 10 and
-- not address 5, in a step and in a run.
theorem witness_ConstructionPlacesTheProgramImage :
    0 < [(1 : Atom), 0, 99].length ∧ 2 < [(1 : Atom), 0, 99].length ∧ [(1 : Atom), 0, 99].length ≤ 3 ∧
      (∀ q, HostAction.reset q ∉ [HostAction.addInput 7, .step, .run 2]) ∧ [(3 : Atom), 10, 99].length ≤ 5 ∧
        5 ∉ cellsWrittenByAll [.addInput 7, .step, .run 2] (fromProgram Config.standard [3, 10, 99]) ∧
          5 ∉ cellsWrittenByAll [.addInput 7, .step, .run 2] (resetTo [3, 10, 99] (boot [0])) ∧
            cellsWrittenByAll [.addInput 7, .step, .run 2] (fromProgram Config.standard [3, 10, 99]) = [10] ∧
              cellsWrittenByAll [.addInput 7, .run 2] (fromProgram Config.standard [3, 10, 99]) = [10] :=
  ⟨by decide, by decide, by decide, by simp, by decide⟩

theorem witness_DecodeInvertsEncode :
    (Instr.add (rel (-1)) (imm (-9223372036854775808)) (rel top)).wellFormed = true := by decide

theorem witness_EncodeInvertsDecode :
    decode [22201, atom (-1), 2, 3, 4] = .ok (.add (rel (-1)) (rel 2) (rel 3), [4]) := by decide

-- One word for each side of each equivalence, at the ends of the ranges.
theorem witness_LegalWordsAreExactlyTheTable :
    (∃ h, decodeWord 1 = .ok h) ∧ (∃ h, decodeWord 22208 = .ok h) ∧ decodeWord 22209 = .error (.malformedInstruction 22209) :=
  ⟨⟨_, rfl⟩, ⟨_, rfl⟩, by decide⟩

theorem witness_DecoderErrorsHaveTheirCauses :
    decodeWord (atom (-1)) = .error (.unknownOpcode (atom (-1))) ∧ decodeWord 10 = .error (.unknownOpcode 10) ∧
      decodeWord 301 = .error (.badParameterMode 3) ∧ decodeWord 90004 = .error (.badParameterMode 9) ∧
        decodeWord 10001 = .error (.badParameterMode 1) ∧ decodeWord 103 = .error (.badParameterMode 1) ∧
          decodeWord 1003 = .error (.malformedInstruction 1003) ∧
            decodeWord 100001 = .error (.malformedInstruction 100001) := by decide

-- k = 3: the first word with a written third digit is 10000. k = 2, k = 1 likewise.
theorem witness_MissingModeDigitMeansPosition :
    (decodeWord 2201 = .ok ⟨⟨1, .add, 3, some 3⟩, .relative, .relative, .position⟩ ∧ (2201 : Atom).toNat < 10 ^ (3 + 1)) ∧
      (decodeWord 201 = .ok ⟨⟨1, .add, 3, some 3⟩, .relative, .position, .position⟩ ∧ (201 : Atom).toNat < 10 ^ (2 + 1)) ∧
        (decodeWord 99 = .ok ⟨⟨99, .halt, 0, none⟩, .position, .position, .position⟩ ∧ (99 : Atom).toNat < 10 ^ (1 + 1)) := by
  decide

theorem witness_PseudoInstructionsAreCoreWords : InAtom ((boot [] [] 0 (top - 3)).ip.toInt + 3) := by decide

theorem witness_NegativeAddressIsAlwaysAnError :
    ((atom (-1)).toInt < 0 ∧ (atom 1).toInt + (boot [] [] (-2)).rb.toInt = (atom (-1)).toInt ∧
        (boot [] [] (-2) (-1)).ip = atom (-1) ∧ (boot [] [] (-2) (-1)).status.terminal = false) ∧
      (atom (-9223372036854775808)).toInt < 0 ∧
        (0 ≤ (atom 0).toInt ∧ limitAdmits (boot []).cfg (atom 0).toNat = true) ∧
          (0 ≤ (atom top).toInt ∧ limitAdmits (boot []).cfg (atom top).toNat = true) ∧
            ¬InAtom ((atom 1).toInt + (boot [] [] top).rb.toInt) := by decide

-- Under MEM_LIMIT = some 50: address 49 is admitted and past the end of the tape, address 50 is not admitted.
theorem witness_ReadsAndWritesGrowTheTape :
    (0 ≤ (atom 49).toInt ∧ limitAdmits (boot [99] [] 0 0 (some 50)).cfg (atom 49).toNat = true ∧
        (boot [99] [] 0 0 (some 50)).mem.len ≤ (atom 49).toNat) ∧
      (0 ≤ (atom 50).toInt ∧ (boot [99] [] 0 0 (some 50)).cfg.memLimit = some 50 ∧ 50 ≤ (atom 50).toNat) ∧
        (boot [99]).cfg.memLimit = none := by decide

theorem witness_AddressingModesResolveAsTabled :
    (atom 1).toInt = (atom 2).toInt + (boot [99, 7] [] (-1)).rb.toInt ∧
      memRead (atom 1) (boot [99, 7]) = .ok (7, boot [99, 7]) ∧
        resolveRead 201 (rel 2) (boot [99, 7] [] (-1)) = .ok (7, boot [99, 7] [] (-1)) := by decide

theorem witness_RelativeAddressOutOfRangeOverflows :
    ¬InAtom ((atom 1).toInt + (boot [] [] top).rb.toInt) ∧
      ¬InAtom ((atom (-1)).toInt + (boot [] [] (-9223372036854775808)).rb.toInt) := by decide

/-- A core whose `ip` is 2^63 - 4, with an Add there: its last word is at the last legal address. -/
def atTheTop : State :=
  (boot [] [] 0 (top - 3)).setMem (Memory.storeList { cells := [], len := 0 } (2 ^ 63 - 4) [1101, 1, 1, 0])

-- At the bottom of the tape and at its top.
theorem witness_StepRunsTheDecodedInstruction :
    ((boot [104, 7, 99]).status.terminal = false ∧ 0 ≤ (boot [104, 7, 99]).ip.toInt ∧
        Accessible (boot [104, 7, 99]) ((boot [104, 7, 99]).ip.toInt + (Instr.output (imm 7)).params.length) ∧
          decode ((boot [104, 7, 99]).mem.window (boot [104, 7, 99]).ip.toNat 4) = .ok (.output (imm 7), [99, 0])) ∧
      (atTheTop.ip.toInt = 2 ^ 63 - 4 ∧ atTheTop.status.terminal = false ∧ 0 ≤ atTheTop.ip.toInt ∧
        Accessible atTheTop (atTheTop.ip.toInt + (Instr.add (imm 1) (imm 1) (pos 0)).params.length) ∧
          decode (atTheTop.mem.window atTheTop.ip.toNat 4) = .ok (.add (imm 1) (imm 1) (pos 0), [])) := by decide

-- Items 2, 3 and 4 of R102, and no failure.
theorem witness_FetchAndDecodeErrorsLatchInOrder :
    (boot []).status.terminal = false ∧
      firstFailure (fetchChecks (boot [] [] 0 (-1))) = some (.outOfBoundsAddress (atom (-1)) .read) ∧
        firstFailure (fetchChecks (boot [99, 77] [] 0 1)) = some (.unknownOpcode 77) ∧
          firstFailure (fetchChecks (boot [1101, 1] [] 0 0 (some 2))) = some (.memoryLimitExceeded 2) ∧
            firstFailure (fetchChecks (boot [1101, 1] [] 0 0 (some 4))) = none := by decide

theorem witness_TerminalStatusIgnoresSteps :
    (latched (boot [99]) .halted).status = .halted ∧
      (latched (boot [0]) (.error (.unknownOpcode 0))).status = .error (.unknownOpcode 0) := by decide

theorem witness_UncommittedStepChangesOnlyStatus :
    (step (boot [99]) = .next (after (boot [99])) ∧ (after (boot [99])).status ≠ .ready) ∧
      (step (boot [3, 0]) = .next (after (boot [3, 0])) ∧ (after (boot [3, 0])).status ≠ .ready) ∧
        (exec (.input (pos (-1))) (boot [] [1]) = .next (ran (.input (pos (-1))) (boot [] [1])) ∧
          (ran (.input (pos (-1))) (boot [] [1])).status ≠ .ready) :=
  ⟨⟨step_next_of _, by decide⟩, ⟨step_next_of _, by decide⟩, exec_next_of _ _, by decide⟩

theorem witness_InstructionPointerAdvancesAsTabled :
    (exec (.add (imm 1) (imm 2) (pos 0)) (boot []) = .next (ran (.add (imm 1) (imm 2) (pos 0)) (boot [])) ∧
        (ran (.add (imm 1) (imm 2) (pos 0)) (boot [])).status = .ready) ∧
      (exec (.input (pos 0)) (boot [] [5]) = .next (ran (.input (pos 0)) (boot [] [5])) ∧
        (ran (.input (pos 0)) (boot [] [5])).status = .ready) ∧
        (exec (.jumpIfTrue (imm 1) (imm 2)) (boot []) = .next (ran (.jumpIfTrue (imm 1) (imm 2)) (boot [])) ∧
          (ran (.jumpIfTrue (imm 1) (imm 2)) (boot [])).status = .ready) ∧
          (exec (.jumpIfFalse (imm 1) (imm 2)) (boot []) = .next (ran (.jumpIfFalse (imm 1) (imm 2)) (boot [])) ∧
            (ran (.jumpIfFalse (imm 1) (imm 2)) (boot [])).status = .ready) ∧
            exec .halt (boot []) = .next (ran .halt (boot [])) ∧
              (step (boot [0]) = .next (after (boot [0])) ∧ (after (boot [0])).status ≠ .ready) :=
  ⟨⟨exec_next_of _ _, by decide⟩, ⟨exec_next_of _ _, by decide⟩, ⟨exec_next_of _ _, by decide⟩,
    ⟨exec_next_of _ _, by decide⟩, exec_next_of _ _, step_next_of _, by decide⟩

-- A committed step and one that is not.
theorem witness_TickCountsCommittedSteps :
    (step (boot [104, 1]) = .next (after (boot [104, 1])) ∧ (after (boot [104, 1])).status = .ready) ∧
      (step (boot [99]) = .next (after (boot [99])) ∧ (after (boot [99])).status ≠ .ready) ∧
        exec .halt (boot []) = .next (ran .halt (boot [])) :=
  ⟨⟨step_next_of _, by decide⟩, ⟨step_next_of _, by decide⟩, exec_next_of _ _⟩

theorem witness_TickInfluencesNothing :
    step (boot [1, 0, 0, 0, 99]) = .next (after (boot [1, 0, 0, 0, 99])) := step_next_of _

-- Storing at address 0: address 1 is another one. A step that stores nothing, and one that does not commit.
theorem witness_StepTouchesOnlyTheWriteParametersCell :
    exec (.output (imm 1)) (boot [99]) = .next (ran (.output (imm 1)) (boot [99])) ∧
      (exec (.mul (imm 1) (imm 2) (pos 0)) (boot [99]) = .next (ran (.mul (imm 1) (imm 2) (pos 0)) (boot [99])) ∧
        ((1 : Nat) : Int) ≠ effectiveAddress (boot [99]) (pos 0)) ∧
        (step (boot [99]) = .next (after (boot [99])) ∧ (after (boot [99])).status ≠ .ready) :=
  ⟨exec_next_of _ _, ⟨exec_next_of _ _, by decide⟩, step_next_of _, by decide⟩

theorem witness_OnlyAdjustRelativeBaseWritesIt :
    (step (boot [109, 1]) = .next (after (boot [109, 1])) ∧ (after (boot [109, 1])).rb ≠ (boot [109, 1]).rb) ∧
      (exec (.adjustRelativeBase (imm 1)) (boot []) = .next (ran (.adjustRelativeBase (imm 1)) (boot [])) ∧
        (ran (.adjustRelativeBase (imm 1)) (boot [])).rb ≠ (boot []).rb) :=
  ⟨⟨step_next_of _, by decide⟩, exec_next_of _ _, by decide⟩

-- Growth by a read, in a run; the address past the old end, and one no step wrote.
theorem witness_TapeNeverShrinksExceptByReset :
    (∀ p, HostAction.run 2 ≠ .reset p) ∧ (boot [4, 10, 99]).mem.len ≤ 3 ∧
      3 ∉ (HostAction.run 2).cellsWritten (boot [4, 10, 99]) ∧
        ((HostAction.run 2).perform (boot [4, 10, 99])).2.mem.len = 11 := by
  refine ⟨nofun, by decide, by decide, by decide⟩

-- The greatest sum and product, the last address with room to advance, a destination that is also a source.
theorem witness_AddStoresTheExactSum :
    Readable (boot [5] [] 0 (top - 4)) (pos 0) ∧ Readable (boot [5] [] 0 (top - 4)) (imm (top - 5)) ∧
      Writable (boot [5] [] 0 (top - 4)) (pos 0) ∧
        InAtom (operandValue (boot [5] [] 0 (top - 4)) (pos 0) + operandValue (boot [5] [] 0 (top - 4)) (imm (top - 5))) ∧
          InAtom ((boot [5] [] 0 (top - 4)).ip.toInt + 4) := by decide

theorem witness_MultiplyStoresTheExactProduct :
    Readable (boot [5] [] (-3)) (rel 3) ∧ Readable (boot [5] [] (-3)) (imm (-2)) ∧ Writable (boot [5] [] (-3)) (rel 3) ∧
      InAtom (operandValue (boot [5] [] (-3)) (rel 3) * operandValue (boot [5] [] (-3)) (imm (-2))) ∧
        InAtom ((boot [5] [] (-3)).ip.toInt + 4) := by decide

theorem witness_LessThanStoresItsTruth :
    Readable (boot []) (imm (-9223372036854775808)) ∧ Readable (boot []) (imm top) ∧ Writable (boot []) (pos top) ∧
      InAtom (if operandValue (boot []) (imm (-9223372036854775808)) < operandValue (boot []) (imm top) then 1 else 0) ∧
        InAtom ((boot []).ip.toInt + 4) := by decide

theorem witness_EqualsStoresItsTruth :
    Readable (boot [1]) (pos 0) ∧ Readable (boot [1]) (imm 1) ∧ Writable (boot [1]) (pos 0) ∧
      InAtom (if operandValue (boot [1]) (pos 0) = operandValue (boot [1]) (imm 1) then 1 else 0) ∧
        InAtom ((boot [1]).ip.toInt + 4) := by decide

theorem witness_InputStoresTheHeadOfTheQueue :
    (boot [] [5, 6] (-1)).inq = 5 :: [6] ∧ Writable (boot [] [5, 6] (-1)) (rel 1) ∧
      InAtom ((boot [] [5, 6] (-1)).ip.toInt + 2) := by decide

theorem witness_InputBlocksOnAnEmptyQueue :
    (boot []).inq = [] ∧ (pos (-1)).mode ≠ .immediate ∧ InAtom (effectiveAddress (boot []) (pos (-1))) := by decide

theorem witness_OutputAppendsItsOperand :
    Readable (boot [] [] 0 (top - 2)) (pos top) ∧ InAtom ((boot [] [] 0 (top - 2)).ip.toInt + 2) := by decide

-- Taken without room to advance, and not taken with the last room there is.
theorem witness_JumpIfTrueJumpsOnNonzero :
    (Readable (boot [] [] 0 top) (imm (-1)) ∧ Readable (boot [] [] 0 top) (pos 0) ∧
        operandValue (boot [] [] 0 top) (imm (-1)) ≠ 0) ∧
      (Readable (boot [] [] 0 (top - 3)) (pos 0) ∧ ¬(operandValue (boot [] [] 0 (top - 3)) (pos 0) ≠ 0) ∧
        InAtom ((boot [] [] 0 (top - 3)).ip.toInt + 3)) := by decide

theorem witness_JumpIfFalseJumpsOnZero :
    (Readable (boot [] [] 0 top) (pos 0) ∧ Readable (boot [] [] 0 top) (imm (-5)) ∧
        operandValue (boot [] [] 0 top) (pos 0) = 0) ∧
      (Readable (boot [] [] 0 (top - 3)) (imm (-1)) ∧ ¬operandValue (boot [] [] 0 (top - 3)) (imm (-1)) = 0 ∧
        InAtom ((boot [] [] 0 (top - 3)).ip.toInt + 3)) := by decide

theorem witness_AdjustRelativeBaseAddsItsOperand :
    Readable (boot [5] [] (top - 5)) (pos 0) ∧
      InAtom ((boot [5] [] (top - 5)).rb.toInt + operandValue (boot [5] [] (top - 5)) (pos 0)) ∧
        InAtom ((boot [5] [] (top - 5)).ip.toInt + 2) := by decide

/-- The first failing check of `add a, b, c` in a state. -/
def addFailure (a b c : Param) (s : State) : Option ErrorKind :=
  firstFailure
    (readChecks (encodeWord (.add a b c)) s a ++ readChecks (encodeWord (.add a b c)) s b ++
      writeAddrChecks (encodeWord (.add a b c)) s c ++
      [rangeFailure (encodeWord (.add a b c)) (operandValue s a + operandValue s b)] ++ writeChecks s c ++
      [rangeFailure (encodeWord (.add a b c)) (s.ip.toInt + 4)])

-- One failure at each place of the order, each with a later check failing too where there is one.
theorem witness_ThreeOperandErrorsLatchInOrder :
    (pos (-1)).mode ≠ .immediate ∧ (rel 1).mode ≠ .immediate ∧
      addFailure (pos (-1)) (pos (-2)) (pos (-3)) (boot []) = some (.outOfBoundsAddress (atom (-1)) .read) ∧
        addFailure (rel 1) (pos (-2)) (pos (-3)) (boot [] [] top) = some (.arithmeticOverflow 201) ∧
          addFailure (pos 0) (pos (-2)) (pos (-3)) (boot []) = some (.outOfBoundsAddress (atom (-2)) .read) ∧
            addFailure (pos 0) (pos 0) (rel 1) (boot [1] [] top) = some (.arithmeticOverflow 20001) ∧
              addFailure (imm top) (imm 1) (pos (-3)) (boot []) = some (.arithmeticOverflow 1101) ∧
                addFailure (imm 1) (imm 1) (pos (-3)) (boot [] [] 0 top) =
                    some (.outOfBoundsAddress (atom (-3)) .write) ∧
                  addFailure (imm 1) (imm 1) (pos 3) (boot [] [] 0 (top - 3)) = some (.arithmeticOverflow 1101) := by
  decide

theorem witness_InputErrorsLatchInOrder :
    ((pos (-1)).mode ≠ .immediate ∧ (boot [] [5]).inq ≠ [] ∧
        firstFailure (writeAddrChecks (encodeWord (.input (pos (-1)))) (boot [] [5]) (pos (-1)) ++
          writeChecks (boot [] [5]) (pos (-1)) ++
          [rangeFailure (encodeWord (.input (pos (-1)))) ((boot [] [5]).ip.toInt + 2)]) =
            some (.outOfBoundsAddress (atom (-1)) .write)) ∧
      ((rel 1).mode ≠ .immediate ∧ (boot [] [] top).inq = [] ∧
        firstFailure (writeAddrChecks (encodeWord (.input (rel 1))) (boot [] [] top) (rel 1)) =
          some (.arithmeticOverflow 203)) := by decide

-- A target that cannot be read, with the jump not taken; and a fall-through out of range.
theorem witness_JumpErrorsLatchInOrder :
    firstFailure (readChecks (encodeWord (.jumpIfTrue (pos 0) (pos (-2)))) (boot []) (pos 0) ++
        readChecks (encodeWord (.jumpIfTrue (pos 0) (pos (-2)))) (boot []) (pos (-2)) ++
        (if operandValue (boot []) (pos 0) ≠ 0 then []
          else [rangeFailure (encodeWord (.jumpIfTrue (pos 0) (pos (-2)))) ((boot []).ip.toInt + 3)])) =
          some (.outOfBoundsAddress (atom (-2)) .read) ∧
      firstFailure (readChecks (encodeWord (.jumpIfFalse (imm 1) (imm 0))) (boot [] [] 0 (top - 2)) (imm 1) ++
        readChecks (encodeWord (.jumpIfFalse (imm 1) (imm 0))) (boot [] [] 0 (top - 2)) (imm 0) ++
        (if operandValue (boot [] [] 0 (top - 2)) (imm 1) = 0 then []
          else [rangeFailure (encodeWord (.jumpIfFalse (imm 1) (imm 0))) ((boot [] [] 0 (top - 2)).ip.toInt + 3)])) =
          some (.arithmeticOverflow 1106) := by decide

theorem witness_OutputAndAdjustErrorsLatchInOrder :
    firstFailure (readChecks (encodeWord (.output (imm 1))) (boot [] [] 0 (top - 1)) (imm 1) ++
        [rangeFailure (encodeWord (.output (imm 1))) ((boot [] [] 0 (top - 1)).ip.toInt + 2)]) =
        some (.arithmeticOverflow 104) ∧
      firstFailure (readChecks (encodeWord (.adjustRelativeBase (imm 1))) (boot [] [] top) (imm 1) ++
        [rangeFailure (encodeWord (.adjustRelativeBase (imm 1)))
          ((boot [] [] top).rb.toInt + operandValue (boot [] [] top) (imm 1))] ++
        [rangeFailure (encodeWord (.adjustRelativeBase (imm 1))) ((boot [] [] top).ip.toInt + 2)]) =
        some (.arithmeticOverflow 109) := by decide

-- One state for each kind of error, for the block and for the halt.
theorem witness_LatchedErrorNamesItsCause :
    (∀ s, step s = .next (after s)) ∧
      ((boot []).status.terminal = false ∧
        (after (boot [1, -1, 0, 0, 99])).status = .error (.outOfBoundsAddress (atom (-1)) .read) ∧
          (after (boot [401, 0, 0, 0])).status = .error (.badParameterMode 4) ∧
            (after (boot [11101, 0, 0, 0])).status = .error (.badParameterMode 1) ∧
              (after (boot [77])).status = .error (.unknownOpcode 77) ∧
                (after (boot [199])).status = .error (.malformedInstruction 199) ∧
                  (after (boot [109, 1] [] top)).status = .error (.arithmeticOverflow 109) ∧
                    (after (boot [4, 50] [] 0 0 (some 50))).status = .error (.memoryLimitExceeded 50) ∧
                      (after (boot [3, 0])).status = .blockedOnInput ∧ (after (boot [99])).status = .halted) :=
  ⟨step_next_of, by decide⟩

-- TJ6, and the same jump by JumpIfFalse.
theorem witness_NegativeJumpTargetFailsAtTheNextFetch :
    (Readable (boot [1105, 1, -5]) (imm 1) ∧ Readable (boot [1105, 1, -5]) (imm (-5)) ∧
        operandValue (boot [1105, 1, -5]) (imm (-5)) < 0 ∧ operandValue (boot [1105, 1, -5]) (imm 1) ≠ 0) ∧
      (Readable (boot [1106, 0, -1]) (imm 0) ∧ Readable (boot [1106, 0, -1]) (imm (-1)) ∧
        operandValue (boot [1106, 0, -1]) (imm (-1)) < 0 ∧ operandValue (boot [1106, 0, -1]) (imm 0) = 0) := by decide

-- V4 stores 99 where `ip` then stands; Multiply stores 77 there; Input stores the word 104, and its operand word.
theorem witness_StoredWordIsTheNextInstruction :
    (writeParam? (.add (imm 100) (imm (-1)) (pos 4)) = some (pos 4) ∧
        exec (.add (imm 100) (imm (-1)) (pos 4)) (boot []) = .next (ran (.add (imm 100) (imm (-1)) (pos 4)) (boot [])) ∧
          (ran (.add (imm 100) (imm (-1)) (pos 4)) (boot [])).status = .ready ∧
            effectiveAddress (boot []) (pos 4) = (ran (.add (imm 100) (imm (-1)) (pos 4)) (boot [])).ip.toInt ∧
              (ran (.add (imm 100) (imm (-1)) (pos 4)) (boot [])).mem.get 4 = 99) ∧
      (writeParam? (.mul (imm 77) (imm 1) (pos 4)) = some (pos 4) ∧
        (ran (.mul (imm 77) (imm 1) (pos 4)) (boot [])).status = .ready ∧
          effectiveAddress (boot []) (pos 4) = (ran (.mul (imm 77) (imm 1) (pos 4)) (boot [])).ip.toInt ∧
            decodeWord ((ran (.mul (imm 77) (imm 1) (pos 4)) (boot [])).mem.get 4) = .error (.unknownOpcode 77)) ∧
        ((ran (.input (pos 2)) (boot [3, 2, 0, 7] [104])).status = .ready ∧
          effectiveAddress (boot [3, 2, 0, 7] [104]) (pos 2) =
              (ran (.input (pos 2)) (boot [3, 2, 0, 7] [104])).ip.toInt + (0 : Nat) ∧
            0 < (encode (.output (imm 7))).length ∧ 0 ≤ (ran (.input (pos 2)) (boot [3, 2, 0, 7] [104])).ip.toInt ∧
              Accessible (ran (.input (pos 2)) (boot [3, 2, 0, 7] [104]))
                  ((ran (.input (pos 2)) (boot [3, 2, 0, 7] [104])).ip.toInt + 1) ∧
                decode ((ran (.input (pos 2)) (boot [3, 2, 0, 7] [104])).mem.window 2 4) =
                  .ok (.output (imm 7), [0, 0])) ∧
          ((ran (.input (pos 3)) (boot [3, 3, 104, 0] [7])).status = .ready ∧
            effectiveAddress (boot [3, 3, 104, 0] [7]) (pos 3) =
                (ran (.input (pos 3)) (boot [3, 3, 104, 0] [7])).ip.toInt + (1 : Nat) ∧
              1 < (encode (.output (imm 7))).length ∧
                decode ((ran (.input (pos 3)) (boot [3, 3, 104, 0] [7])).mem.window 2 4) =
                  .ok (.output (imm 7), [0, 0])) :=
  ⟨⟨rfl, exec_next_of _ _, by decide⟩, by decide⟩

/-- A core with a limit and a tape that meets the invariant. -/
theorem witness_StepPreservesTheTapeInvariant :
    (boot [4, 3] [] 0 0 (some 4)).Inv ∧ step (boot [4, 3] [] 0 0 (some 4)) = .next (after (boot [4, 3] [] 0 0 (some 4))) :=
  ⟨⟨by decide, by decide, by rintro l ⟨⟩; decide⟩, step_next_of _⟩

-- A program exactly as long as the limit.
theorem witness_HostActionsPreserveTheTapeInvariant :
    (boot [4, 3] [] 0 0 (some 2)).Inv ∧ (HostAction.reset [99, 0]).fits (boot [4, 3] [] 0 0 (some 2)).cfg ∧
      programFits (boot [4, 3] [] 0 0 (some 2)).cfg [99, 0] :=
  ⟨⟨by decide, by decide, by rintro l ⟨⟩; decide⟩, ⟨by decide, by rintro l ⟨⟩; decide⟩, ⟨by decide, by rintro l ⟨⟩; decide⟩⟩

-- A halted core that stands at a Halt, and so agrees.
theorem witness_StepKeepsTheLatchHonest :
    (latched (boot [99]) .halted).LatchAgrees ∧ (latched (boot [99]) .halted).status ≠ .ready ∧
      step (latched (boot [99]) .halted) = .next (after (latched (boot [99]) .halted)) :=
  ⟨fun _ => (step_next_of _).trans (congrArg _ (by decide)), by decide, step_next_of _⟩

-- A blocked core and a halted one.
theorem witness_StoppedCoreStandsAtItsInstruction :
    (latched (boot [3, 0]) .blockedOnInput).StandsWhereItStopped ∧ (latched (boot [99]) .halted).StandsWhereItStopped :=
  ⟨⟨fun _ => ⟨pos 0, by decide⟩, nofun⟩, nofun, fun _ => by decide⟩

theorem witness_ParametersNeverChange : exec .halt (boot [99]) = .next (ran .halt (boot [99])) := exec_next_of _ _

theorem witness_OutputSuspendsChangesNoState : step (boot [104, 1]) = .next (after (boot [104, 1])) := step_next_of _

theorem witness_InputQueueIsFirstInFirstOut :
    (exec (.input (pos 0)) (boot [] [5, 6]) = .next (ran (.input (pos 0)) (boot [] [5, 6])) ∧
        (ran (.input (pos 0)) (boot [] [5, 6])).status = .ready) ∧
      (exec (.output (imm 1)) (boot [] [5]) = .next (ran (.output (imm 1)) (boot [] [5])) ∧
        ∀ c, Instr.output (imm 1) ≠ .input c) ∧
        (step (boot [3, 0] [5, 6]) = .next (after (boot [3, 0] [5, 6])) ∧
          (after (boot [3, 0] [5, 6])).inq ≠ (boot [3, 0] [5, 6]).inq) :=
  ⟨⟨exec_next_of _ _, by decide⟩, ⟨exec_next_of _ _, nofun⟩, step_next_of _, by decide⟩

theorem witness_OutputQueueIsWriteOnlyToTheProgram :
    (exec (.output (imm 1)) (boot []) = .next (ran (.output (imm 1)) (boot [])) ∧
        (ran (.output (imm 1)) (boot [])).status = .ready) ∧
      (exec .halt (boot []) = .next (ran .halt (boot [])) ∧ ∀ a, Instr.halt ≠ .output a) ∧
        step (boot [104, 1]) = .next (after (boot [104, 1])) :=
  ⟨⟨exec_next_of _ _, by decide⟩, ⟨exec_next_of _ _, nofun⟩, step_next_of _⟩

theorem witness_QueuesKeepOrderAcrossHostActions :
    ∀ p, HostAction.reset p ∉ [HostAction.addInput 1, .run 5, .takeOutput, .step, .output, .memory] := by simp

theorem witness_HostCannotReachTheProgramState :
    step (boot [99]) = .next (after (boot [99])) ∧ (latched (boot [99]) .halted).status.terminal = true :=
  ⟨step_next_of _, by decide⟩

theorem witness_MemoryViewListsTheTape : 0 < (memoryView (boot [99, 5])).length ∧ 1 < (memoryView (boot [99, 5])).length := by
  decide

theorem witness_StepResultReportsTheStep :
    (∀ s, step s = .next (after s)) ∧
      (after (boot [99])).status = .halted ∧ (after (boot [3, 0])).status = .blockedOnInput ∧
        (after (boot [0])).status = .error (.unknownOpcode 0) ∧
          ((after (boot [104, 1])).status = .ready ∧ (boot [104, 1]).cfg.outputSuspends = false) ∧
            ((after (boot [109, 1])).status = .ready ∧ ∀ a, fetchInstr (boot [109, 1]) ≠ .ok (.output a)) ∧
              ((after (suspending (boot [104, 1]))).status = .ready ∧
                (suspending (boot [104, 1])).cfg.outputSuspends = true ∧
                  fetchInstr (suspending (boot [104, 1])) = .ok (.output (imm 1))) := by
  refine ⟨step_next_of, by decide, by decide, by decide, by decide, ⟨by decide, fun a h => ?_⟩, by decide⟩
  have e : fetchInstr (boot [109, 1]) = .ok (.adjustRelativeBase (imm 1)) := by decide
  rw [e] at h
  cases h

-- A run that stops at its second step, and one that runs out of fuel.
theorem witness_RunStopsAtTheFirstResultNotReady :
    (run 5 (boot [104, 1, 99])).1 = some (.halted 2) ∧ (run 1 (boot [104, 1, 99])).1 = none := by decide

theorem witness_BlockedStepRunsAsReadyStep : (latched (boot [3, 0] [7]) .blockedOnInput).status = .blockedOnInput := by decide

end Sys2Proof.Tests
end

section
/-! `OUTPUT_SUSPENDS` and the state (spec/00_scope.md R9): a change of state that no stage of the step can see passes
through the whole step, and setting `OUTPUT_SUSPENDS` is such a change. -/

namespace Sys2Proof.Machine

/-- A change that no execute stage can see, that keeps the status and that commutes with settling, passes through the
step. -/
theorem Blind.step {F : State → State} (hF : Blind F)
    (hin : ∀ s, (F s).popInput? = s.popInput?.map fun r => (r.1, F r.2))
    (hout : ∀ s v, F (s.pushOutput v) = (F s).pushOutput v) (hrb : ∀ s v, F (s.setRb v) = (F s).setRb v)
    (hstatus : ∀ s, (F s).status = s.status)
    (hsettle : ∀ s r, F (s.settle r) = (F s).settle (r.map (Ending.mapCopy F)))
    {s t : State} (h : step s = .next t) : step (F s) = .next (F t) := by
  have hfetch : fetchInstr (F s) = fetchInstr s := fetchInstr_congr (hF.mem s) (hF.ip s) (hF.limit s)
  rcases step_form h with ⟨hterm, rfl⟩ | ⟨hterm, k, hk, rfl⟩ | ⟨hterm, i, hi, rfl⟩
  · simp [Machine.step, hstatus, hterm]
  · have hraise : F (s.raise k) = (F s).raise k := hsettle s (.error k)
    simp [Machine.step, hstatus, hterm, hfetch, hk, hraise]
  · have hstage := hF.stageOf hin hout hrb i s
    simp [Machine.step, hstatus, hterm, hfetch, hi, exec_eq_settle, hstage, hsettle]

/-- The state under a setting of `OUTPUT_SUSPENDS` (R9). -/
def State.withOutputSuspends (b : Bool) (s : State) : State := { s with cfg := { s.cfg with outputSuspends := b } }

theorem blind_withOutputSuspends (b : Bool) : Blind (State.withOutputSuspends b) :=
  ⟨fun _ => rfl, fun _ => rfl, fun _ => rfl, fun _ => rfl, fun _ _ => rfl⟩

theorem State.popInput?_withOutputSuspends (b : Bool) (s : State) :
    (s.withOutputSuspends b).popInput? = s.popInput?.map fun r => (r.1, r.2.withOutputSuspends b) := by
  rcases s with ⟨mem, ip, rb, _ | ⟨v, rest⟩, outq, status, tick, cfg⟩
  · rfl
  · rfl

/-- Neither committing, nor latching an error, a halt or a block reads `OUTPUT_SUSPENDS`. -/
theorem State.withOutputSuspends_settle (b : Bool) (s : State) (r : Except ErrorKind Ending) :
    (s.settle r).withOutputSuspends b =
      (s.withOutputSuspends b).settle (r.map (Ending.mapCopy (State.withOutputSuspends b))) := by
  rcases r with k | ⟨copy, n⟩ | _ | _
  · rfl
  · rfl
  · rfl
  · rfl

/-- Settles O52: setting `OUTPUT_SUSPENDS` is a change of state that passes through the step. -/
theorem outputSuspendsChangesNoState : Obligations.OutputSuspendsChangesNoState := fun _ _ b h =>
  (blind_withOutputSuspends b).step (State.popInput?_withOutputSuspends b) (fun _ _ => rfl) (fun _ _ => rfl)
    (fun _ => rfl) (State.withOutputSuspends_settle b) h

end Sys2Proof.Machine
end

section
/-! When a change of state commutes with taking an input and with the endings of a step: two of the conditions under which
it passes through a step (`Blind.step`). -/

namespace Sys2Proof.Machine

/-- The state with another input queue. -/
def State.withInput (q : List Atom) (s : State) : State := { s with inq := q }

theorem State.popInput?_of_cons {s : State} {v : Atom} {rest : List Atom} (hq : s.inq = v :: rest) :
    s.popInput? = some (v, s.withInput rest) := by
  simp only [State.popInput?, hq, State.withInput]

variable {F : State → State}

/-- A change that leaves `inq` alone commutes with taking an input. -/
theorem popInput?_comm (hinq : ∀ s, (F s).inq = s.inq)
    (hset : ∀ q s, F (s.withInput q) = (F s).withInput q) (s : State) :
    (F s).popInput? = s.popInput?.map fun r => (r.1, F r.2) := by
  cases hq : s.inq with
  | nil => rw [(State.popInput?_none s).2 hq, (State.popInput?_none (F s)).2 ((hinq s).trans hq), Option.map_none]
  | cons v rest =>
    rw [State.popInput?_of_cons hq, State.popInput?_of_cons ((hinq s).trans hq), Option.map_some, hset]

/-- A change that commutes with writing the latch and with committing commutes with every ending of a step. -/
theorem settle_comm (hlatch : ∀ (s : State) st, F { s with status := st } = { F s with status := st })
    (hcommit : ∀ s copy n, F (s.commit copy n) = (F s).commit (F copy) n) (s : State) (r : Except ErrorKind Ending) :
    F (s.settle r) = (F s).settle (r.map (Ending.mapCopy F)) := by
  rcases r with k | ⟨copy, n⟩ | _ | _
  · exact hlatch s _
  · exact hcommit s copy n
  · exact hlatch s _
  · exact hlatch s _

end Sys2Proof.Machine
end

section
/-! The tick counter (spec/10_state.md R30; the spec's own decision D13): a committed step counts it up by one, and no rule
reads it. -/

namespace Sys2Proof.Machine

/-- The state with `n` more ticks. -/
def State.addTicks (n : Nat) (s : State) : State := { s with tick := s.tick + n }

theorem blind_addTicks (n : Nat) : Blind (State.addTicks n) :=
  ⟨fun _ => rfl, fun _ => rfl, fun _ => rfl, fun _ => rfl, fun _ _ => rfl⟩

/-- A committed step counts its own tick, before or after others are added. -/
theorem State.addTicks_commit (n : Nat) (s copy : State) (ipNext : Atom) :
    (s.commit copy ipNext).addTicks n = (s.addTicks n).commit (copy.addTicks n) ipNext := by
  have htick : s.tick + 1 + n = s.tick + n + 1 := Nat.add_right_comm _ _ _
  simp only [State.addTicks, State.commit, htick]

/-- Settles O25: adding ticks is a change of state that passes through the step. -/
theorem tickInfluencesNothing : Obligations.TickInfluencesNothing := fun _ _ n h =>
  (blind_addTicks n).step (popInput?_comm (fun _ => rfl) fun _ _ => rfl) (fun _ _ => rfl) (fun _ _ => rfl)
    (fun _ => rfl) (settle_comm (fun _ _ => rfl) (State.addTicks_commit n)) h

theorem State.settle_tick (s : State) (r : Except ErrorKind Ending) :
    (s.settle r).tick = if (s.settle r).status = .ready then s.tick + 1 else s.tick := by
  rcases r with k | ⟨copy, n⟩ | _ | _ <;> rfl

theorem State.status_ne_ready_of_terminal {s : State} (h : s.status.terminal = true) : s.status ≠ .ready := by
  intro hr
  rw [hr] at h
  cases h

/-- Settles O24: the tick of each ending of a step, and of the two steps that run no instruction. -/
theorem tickCountsCommittedSteps : Obligations.TickCountsCommittedSteps := by
  refine ⟨fun i s t h => ?_, fun s t h => ?_⟩
  · obtain rfl := exec_next h
    exact s.settle_tick _
  · rcases step_form h with ⟨hterm, rfl⟩ | ⟨-, k, -, rfl⟩ | ⟨-, i, -, rfl⟩
    · rw [if_neg (State.status_ne_ready_of_terminal hterm)]
    · rfl
    · exact s.settle_tick _

end Sys2Proof.Machine
end

section
/-! The tape invariant (spec/10_state.md R26; spec/20_memory.md R42, R44, R46): every length a step asks the tape for is
the end of an access that was allowed, so no step grows the tape past the legal addresses or past `MEM_LIMIT`. -/

namespace Sys2Proof.Machine

/-- A length the tape may have: it ends within the legal addresses (R42) and within `MEM_LIMIT` (R26). -/
def AdmitsLen (cfg : Config) (l : Nat) : Prop := l ≤ 2 ^ 63 ∧ ∀ limit, cfg.memLimit = some limit → l ≤ limit

theorem AdmitsLen.max {cfg : Config} {k l : Nat} (hk : AdmitsLen cfg k) (hl : AdmitsLen cfg l) :
    AdmitsLen cfg (max k l) :=
  ⟨Nat.max_le.2 ⟨hk.1, hl.1⟩, fun limit h => Nat.max_le.2 ⟨hk.2 limit h, hl.2 limit h⟩⟩

theorem AdmitsLen.zero (cfg : Config) : AdmitsLen cfg 0 := ⟨Nat.zero_le _, fun _ _ => Nat.zero_le _⟩

/-- A tape that reaches just past an accessible address has a length it may have. -/
theorem Accessible.admitsLen {s : State} {v : Int} (h : Accessible s v) : AdmitsLen s.cfg (v.toNat + 1) := by
  obtain ⟨h0, htop, hlim⟩ := h
  refine ⟨by omega, fun limit hcfg => ?_⟩
  simp only [limitAdmits, hcfg, decide_eq_true_eq] at hlim
  omega

theorem accessible_toInt {s : State} {a : Atom} (h0 : 0 ≤ a.toInt) (hlim : limitAdmits s.cfg a.toNat = true) :
    Accessible s a.toInt :=
  ⟨h0, (inAtom_toInt a).2, by rwa [toInt_toNat_of_nonneg h0]⟩

theorem admitsLen_lengthRead {s : State} {p : Param} (h : Readable s p) : AdmitsLen s.cfg (lengthRead s p) := by
  unfold lengthRead
  split
  · exact .zero _
  · next hmode => exact Accessible.admitsLen (h.resolve_left hmode)

/-- The atoms of the instruction a step fetches end within a length the tape may have: each of them was read. -/
theorem admitsLen_of_fetchInstr {s : State} {i : Instr} (h : fetchInstr s = .ok i) :
    AdmitsLen s.cfg (s.ip.toInt + i.length).toNat := by
  obtain ⟨h0, hlim, hd, hdec, hparams, rfl⟩ := fetchInstr_eq_ok.1 h
  have last : Accessible s (s.ip.toInt + hd.row.arity) := by
    cases harity : hd.row.arity with
    | zero => simpa using accessible_toInt h0 hlim
    | succ k =>
      have := hparams k (by omega)
      rwa [Nat.add_comm 1 k] at this
  have hlen : (s.ip.toInt + hd.row.arity).toNat + 1 = (s.ip.toInt + ((1 + hd.row.arity : Nat) : Int)).toNat := by omega
  rw [Instr.length, (arity_of_decodeWord hdec _).1, ← hlen]
  exact last.admitsLen

/-- A tape in canonical form, of a length it may have: what `State.Inv` says of the tape. -/
def Memory.LegalUnder (m : Memory) (cfg : Config) : Prop := m.wf ∧ AdmitsLen cfg m.len

theorem State.inv_iff_legalUnder (s : State) : s.Inv ↔ s.mem.LegalUnder s.cfg :=
  ⟨fun h => ⟨h.wf, h.addressable, h.limited⟩, fun ⟨hwf, hlen, hlim⟩ => ⟨hwf, hlen, hlim⟩⟩

theorem Memory.LegalUnder.growTo {m : Memory} {cfg : Config} {l : Nat} (hm : m.LegalUnder cfg) (hl : AdmitsLen cfg l) :
    (m.growTo l).LegalUnder cfg :=
  ⟨Memory.wf_growTo hm.1 l, by rw [Memory.len_growTo]; exact hm.2.max hl⟩

theorem Memory.LegalUnder.store {m : Memory} {s : State} {a : Atom} (hm : m.LegalUnder s.cfg) (h0 : 0 ≤ a.toInt)
    (hlim : limitAdmits s.cfg a.toNat = true) (v : Atom) : (m.store a.toNat v).LegalUnder s.cfg := by
  have hlen := (accessible_toInt h0 hlim).admitsLen
  rw [toInt_toNat_of_nonneg h0] at hlen
  exact ⟨Memory.wf_store hm.1 _ v, by rw [Memory.len_store]; exact hm.2.max hlen⟩

section Stages

variable {s copy : State} {w : Atom} {a b c t : Param} {n : Atom} (hs : s.mem.LegalUnder s.cfg)
include hs

theorem binaryStage_legalUnder {f : Int → Int → Int} (hf : AdmitsLen s.cfg (s.ip.toInt + 4).toNat)
    (h : binaryStage f w a b c s = .ok (.advance copy n)) : copy.mem.LegalUnder s.cfg := by
  obtain ⟨ha, hb, -, d, r, _, -, -, h0, hlim, -, e⟩ := binaryStage_eq_ok.1 h
  cases e
  exact (hs.growTo ((hf.max (admitsLen_lengthRead ha)).max (admitsLen_lengthRead hb))).store h0 hlim r

theorem jumpStage_legalUnder {taken : Atom → Bool} (hf : AdmitsLen s.cfg (s.ip.toInt + 3).toNat)
    (h : jumpStage taken w a t s = .ok (.advance copy n)) : copy.mem.LegalUnder s.cfg := by
  obtain ⟨ha, ht, _, _, -, -, e⟩ := jumpStage_eq_ok.1 h
  cases e
  exact hs.growTo ((hf.max (admitsLen_lengthRead ha)).max (admitsLen_lengthRead ht))

theorem inputStage_legalUnder (hf : AdmitsLen s.cfg (s.ip.toInt + 2).toNat)
    (h : inputStage w c s = .ok (.advance copy n)) : copy.mem.LegalUnder s.cfg := by
  obtain ⟨-, d, -, ⟨-, e⟩ | ⟨v, rest, _, -, h0, hlim, -, e⟩⟩ := inputStage_eq_ok.1 h
  · cases e
  · cases e
    exact (hs.growTo hf).store h0 hlim v

theorem outputStage_legalUnder (hf : AdmitsLen s.cfg (s.ip.toInt + 2).toNat)
    (h : outputStage w a s = .ok (.advance copy n)) : copy.mem.LegalUnder s.cfg := by
  obtain ⟨ha, _, _, -, -, e⟩ := outputStage_eq_ok.1 h
  cases e
  exact hs.growTo (hf.max (admitsLen_lengthRead ha))

theorem adjustStage_legalUnder (hf : AdmitsLen s.cfg (s.ip.toInt + 2).toNat)
    (h : adjustStage w a s = .ok (.advance copy n)) : copy.mem.LegalUnder s.cfg := by
  obtain ⟨ha, _, _, -, -, e⟩ := adjustStage_eq_ok.1 h
  cases e
  exact hs.growTo (hf.max (admitsLen_lengthRead ha))

/-- The tape a committed instruction leaves is legal, if the fetch of its own atoms was. -/
theorem stageOf_legalUnder {i : Instr} (hf : AdmitsLen s.cfg (s.ip.toInt + i.length).toNat)
    (h : stageOf i s = .ok (.advance copy n)) : copy.mem.LegalUnder s.cfg := by
  cases i with
  | add => exact binaryStage_legalUnder hs hf h
  | mul => exact binaryStage_legalUnder hs hf h
  | input => exact inputStage_legalUnder hs hf h
  | output => exact outputStage_legalUnder hs hf h
  | jumpIfTrue => exact jumpStage_legalUnder hs hf h
  | jumpIfFalse => exact jumpStage_legalUnder hs hf h
  | lessThan => exact binaryStage_legalUnder hs hf h
  | equals => exact binaryStage_legalUnder hs hf h
  | adjustRelativeBase => exact adjustStage_legalUnder hs hf h
  | halt => cases h

end Stages

/-- Only a committed copy reaches the live tape. -/
theorem State.settle_legalUnder {s : State} {r : Except ErrorKind Ending} (hs : s.mem.LegalUnder s.cfg)
    (hr : ∀ copy n, r = .ok (.advance copy n) → copy.mem.LegalUnder s.cfg) : (s.settle r).mem.LegalUnder s.cfg := by
  rcases r with k | ⟨copy, n⟩ | _ | _
  · exact hs
  · exact hr copy n rfl
  · exact hs
  · exact hs

theorem State.Inv.step {s t : State} (hs : s.Inv) (h : step s = .next t) : t.Inv := by
  rw [State.inv_iff_legalUnder] at hs ⊢
  rcases step_form h with ⟨-, rfl⟩ | ⟨-, k, -, rfl⟩ | ⟨-, i, hi, rfl⟩
  · exact hs
  · exact hs
  · rw [State.settle_cfg]
    exact State.settle_legalUnder hs fun _ _ => stageOf_legalUnder hs (admitsLen_of_fetchInstr hi)

/-- Settles O47, by `State.Inv.step`: a step grows the tape only over accesses that were allowed. -/
theorem stepPreservesTheTapeInvariant : Obligations.StepPreservesTheTapeInvariant := fun _ _ hs h => hs.step h

end Sys2Proof.Machine
end

section
/-! What steps, runs and the other host actions do to the tape (spec/10_state.md R26; spec/20_memory.md R46), and the
parameters, which nothing writes (spec/10_state.md R34). -/

namespace Sys2Proof.Machine

/-! ### The parameters -/

theorem exec_cfg {i : Instr} {s t : State} (h : exec i s = .next t) : t.cfg = s.cfg := by
  obtain rfl := exec_next h
  exact s.settle_cfg _

@[simp] theorem stateAfterStep_cfg (s : State) : (stateAfterStep s).cfg = s.cfg := by
  rcases step_form (step_eq_stateAfterStep s) with ⟨-, e⟩ | ⟨-, k, -, e⟩ | ⟨-, i, -, e⟩
  · rw [e]
  · rw [e, State.raise_cfg]
  · rw [e, State.settle_cfg]

/-! ### A run is its first step and, after a result of Ready, the rest of the run -/

theorem run_succ (fuel : Nat) (s : State) :
    run (fuel + 1) s =
      if observe s (stateAfterStep s) = .ready then run fuel (stateAfterStep s)
      else (some (observe s (stateAfterStep s)), stateAfterStep s) := by
  simp only [run, hostStep]
  cases observe s (stateAfterStep s) <;> rfl

theorem cellsWrittenByRun_succ (fuel : Nat) (s : State) :
    cellsWrittenByRun (fuel + 1) s =
      (cellWritten s).toList ++
        if observe s (stateAfterStep s) = .ready then cellsWrittenByRun fuel (stateAfterStep s) else [] := by
  simp only [cellsWrittenByRun, hostStep]
  cases observe s (stateAfterStep s) <;> simp

/-- What every step keeps, a run keeps. -/
theorem run_induction {P : State → Prop} (hP : ∀ s, P s → P (stateAfterStep s)) (fuel : Nat) {s : State} (hs : P s) :
    P (run fuel s).2 := by
  induction fuel generalizing s with
  | zero => exact hs
  | succ fuel ih =>
    rw [run_succ]
    split
    · exact ih (hP s hs)
    · exact hP s hs

@[simp] theorem run_cfg (fuel : Nat) (s : State) : (run fuel s).2.cfg = s.cfg :=
  run_induction (P := fun t => t.cfg = s.cfg) (fun t ht => by rw [stateAfterStep_cfg, ht]) fuel rfl

@[simp] theorem perform_cfg (act : HostAction) (s : State) : (act.perform s).2.cfg = s.cfg := by
  cases act with
  | step => exact stateAfterStep_cfg s
  | run fuel => exact run_cfg fuel s
  | reset | addInput | output | takeOutput | memory => rfl

@[simp] theorem performAll_cfg (acts : List HostAction) (s : State) : (performAll acts s).cfg = s.cfg := by
  induction acts generalizing s with
  | nil => rfl
  | cons act acts ih => rw [performAll, ih, perform_cfg]

/-- Settles O51, by `exec_cfg` and `performAll_cfg`. -/
theorem parametersNeverChange : Obligations.ParametersNeverChange :=
  ⟨fun _ _ _ h => exec_cfg h, performAll_cfg⟩

/-! ### What a step does to the tape -/

theorem cellWritten_of_fetch_ready {s : State} {i : Instr} (hi : fetchInstr s = .ok i)
    (hr : (stateAfterStep s).status = .ready) :
    cellWritten s = (writeParam? i).map fun c => (effectiveAddress s c).toNat := by
  simp only [cellWritten, hi, hr]

/-- A step does to the tape one of two things: it grows it (by nothing, if it does not commit), or it also stores a value
in the cell it writes. -/
theorem stateAfterStep_mem (s : State) :
    (∃ l, (stateAfterStep s).mem = s.mem.growTo l) ∨
      ∃ l d v, cellWritten s = some d ∧ (stateAfterStep s).mem = (s.mem.growTo l).store d v := by
  rcases step_form (step_eq_stateAfterStep s) with ⟨-, e⟩ | ⟨-, k, -, e⟩ | ⟨-, i, hi, e⟩
  · exact .inl ⟨0, by rw [e, growTo_zero]⟩
  · exact .inl ⟨0, by rw [e, State.raise_mem, growTo_zero]⟩
  · by_cases hr : (stateAfterStep s).status = .ready
    · obtain ⟨copy, n, hstage, hcommit⟩ := settle_ready (e ▸ hr)
      have hmem : (stateAfterStep s).mem = copy.mem := by rw [e, hcommit, State.commit_mem]
      have hcell := cellWritten_of_fetch_ready hi hr
      cases hw : writeParam? i with
      | none =>
        obtain ⟨l, hl⟩ := stageOf_grows hw hstage
        exact .inl ⟨l, by rw [hmem, hl]⟩
      | some c =>
        obtain ⟨l, d, v, hd, h0, -, -, hstore⟩ := stageOf_stores hw hstage
        refine .inr ⟨l, d.toNat, v, ?_, by rw [hmem, hstore]⟩
        rw [hcell, hw, Option.map_some, ← hd, toInt_toNat_of_nonneg h0]
    · exact .inl ⟨0, by rw [e, settle_unready (e ▸ hr), growTo_zero]⟩

theorem len_le_stateAfterStep (s : State) : s.mem.len ≤ (stateAfterStep s).mem.len := by
  rcases stateAfterStep_mem s with ⟨l, e⟩ | ⟨l, d, v, -, e⟩
  · rw [e, Memory.len_growTo]; omega
  · rw [e, Memory.len_store, Memory.len_growTo]; omega

theorem get_stateAfterStep_of_not_written {s : State} {a : Nat} (h : a ∉ (cellWritten s).toList) :
    (stateAfterStep s).mem.get a = s.mem.get a := by
  rcases stateAfterStep_mem s with ⟨l, e⟩ | ⟨l, d, v, hd, e⟩
  · rw [e, Memory.get_growTo]
  · have had : a ≠ d := by simpa [hd] using h
    rw [e, Memory.get_store, if_neg had, Memory.get_growTo]

/-! ### Runs and host actions -/

theorem len_le_run (fuel : Nat) (s : State) : s.mem.len ≤ (run fuel s).2.mem.len :=
  run_induction (P := fun t => s.mem.len ≤ t.mem.len) (fun t ht => ht.trans (len_le_stateAfterStep t)) fuel le_rfl

theorem get_run_of_not_written {fuel : Nat} {s : State} {a : Nat} (h : a ∉ cellsWrittenByRun fuel s) :
    (run fuel s).2.mem.get a = s.mem.get a := by
  induction fuel generalizing s with
  | zero => rfl
  | succ fuel ih =>
    rw [cellsWrittenByRun_succ, List.mem_append, not_or] at h
    obtain ⟨hfirst, hrest⟩ := h
    have hstep := get_stateAfterStep_of_not_written hfirst
    rw [run_succ]
    split
    · next hready =>
      rw [if_pos hready] at hrest
      rw [ih hrest, hstep]
    · exact hstep

theorem len_le_perform {act : HostAction} (h : ∀ p, act ≠ .reset p) (s : State) :
    s.mem.len ≤ (act.perform s).2.mem.len := by
  cases act with
  | reset p => exact absurd rfl (h p)
  | step => exact len_le_stateAfterStep s
  | run fuel => exact len_le_run fuel s
  | addInput | output | takeOutput | memory => exact le_rfl

theorem get_perform_of_not_written {act : HostAction} (h : ∀ p, act ≠ .reset p) {s : State} {a : Nat}
    (ha : a ∉ act.cellsWritten s) : (act.perform s).2.mem.get a = s.mem.get a := by
  cases act with
  | reset p => exact absurd rfl (h p)
  | step => exact get_stateAfterStep_of_not_written ha
  | run fuel => exact get_run_of_not_written ha
  | addInput | output | takeOutput | memory => rfl

/-- Settles O28, by the frame of each host action's steps. -/
theorem tapeNeverShrinksExceptByReset : Obligations.TapeNeverShrinksExceptByReset := fun s _ h =>
  ⟨len_le_perform h s, fun _ ha => s.mem.get_of_len_le ha, fun _ ha => get_perform_of_not_written h ha⟩

end Sys2Proof.Machine
end

section
/-! The relative base and the queues (spec/10_state.md R23, R27, R28): each is written by one instruction, and only Input
reads `inq`, none `outq`. -/

namespace Sys2Proof.Machine

/-! ### What an instruction leaves alone -/

/-- The committed copy of an instruction keeps `rb`, `inq` and `outq`, each but for the one instruction that writes it. -/
theorem stageOf_keeps {i : Instr} {s copy : State} {n : Atom} (h : stageOf i s = .ok (.advance copy n)) :
    ((∀ a, i ≠ .adjustRelativeBase a) → copy.rb = s.rb) ∧ ((∀ c, i ≠ .input c) → copy.inq = s.inq) ∧
      ((∀ a, i ≠ .output a) → copy.outq = s.outq) := by
  have bin : ∀ {f w a b c}, binaryStage f w a b c s = .ok (.advance copy n) →
      copy.rb = s.rb ∧ copy.inq = s.inq ∧ copy.outq = s.outq := by
    intro f w a b c hb
    obtain ⟨-, -, -, _, _, _, -, -, -, -, -, e⟩ := binaryStage_eq_ok.1 hb
    cases e
    exact ⟨rfl, rfl, rfl⟩
  have jump : ∀ {taken w a t}, jumpStage taken w a t s = .ok (.advance copy n) →
      copy.rb = s.rb ∧ copy.inq = s.inq ∧ copy.outq = s.outq := by
    intro taken w a t hj
    obtain ⟨-, -, _, _, -, -, e⟩ := jumpStage_eq_ok.1 hj
    cases e
    exact ⟨rfl, rfl, rfl⟩
  cases i with
  | add | mul | lessThan | equals =>
    obtain ⟨hrb, hinq, houtq⟩ := bin h
    exact ⟨fun _ => hrb, fun _ => hinq, fun _ => houtq⟩
  | jumpIfTrue | jumpIfFalse =>
    obtain ⟨hrb, hinq, houtq⟩ := jump h
    exact ⟨fun _ => hrb, fun _ => hinq, fun _ => houtq⟩
  | input c =>
    obtain ⟨-, _, -, ⟨-, e⟩ | ⟨_, _, _, -, -, -, -, e⟩⟩ := inputStage_eq_ok.1 h <;> cases e
    exact ⟨fun _ => rfl, fun hc => absurd rfl (hc c), fun _ => rfl⟩
  | output a =>
    obtain ⟨-, _, _, -, -, e⟩ := outputStage_eq_ok.1 h
    cases e
    exact ⟨fun _ => rfl, fun _ => rfl, fun ha => absurd rfl (ha a)⟩
  | adjustRelativeBase a =>
    obtain ⟨-, _, _, -, -, e⟩ := adjustStage_eq_ok.1 h
    cases e
    exact ⟨fun ha => absurd rfl (ha a), fun _ => rfl, fun _ => rfl⟩
  | halt => cases h

/-- So does the instruction: an uncommitted copy is discarded. -/
theorem exec_keeps {i : Instr} {s t : State} (h : exec i s = .next t) :
    ((∀ a, i ≠ .adjustRelativeBase a) → t.rb = s.rb) ∧ ((∀ c, i ≠ .input c) → t.inq = s.inq) ∧
      ((∀ a, i ≠ .output a) → t.outq = s.outq) := by
  obtain rfl := exec_next h
  rcases hstage : stageOf i s with k | ⟨copy, n⟩ | _ | _
  · exact ⟨fun _ => rfl, fun _ => rfl, fun _ => rfl⟩
  · have hcopy := stageOf_keeps hstage
    exact hcopy
  · exact ⟨fun _ => rfl, fun _ => rfl, fun _ => rfl⟩
  · exact ⟨fun _ => rfl, fun _ => rfl, fun _ => rfl⟩

theorem exec_rb {i : Instr} {s t : State} (h : exec i s = .next t) (hi : ∀ a, i ≠ .adjustRelativeBase a) :
    t.rb = s.rb := by
  obtain ⟨hrb, -, -⟩ := exec_keeps h
  exact hrb hi

theorem exec_inq {i : Instr} {s t : State} (h : exec i s = .next t) (hi : ∀ c, i ≠ .input c) : t.inq = s.inq := by
  obtain ⟨-, hinq, -⟩ := exec_keeps h
  exact hinq hi

theorem exec_outq {i : Instr} {s t : State} (h : exec i s = .next t) (hi : ∀ a, i ≠ .output a) : t.outq = s.outq := by
  obtain ⟨-, -, houtq⟩ := exec_keeps h
  exact houtq hi

theorem exec_unready {i : Instr} {s t : State} (h : exec i s = .next t) (hr : t.status ≠ .ready) :
    t = { s with status := t.status } := by
  obtain rfl := exec_next h
  exact settle_unready hr

/-- A step that changes anything but the latch runs the instruction it fetched. -/
theorem step_latch_or_exec {s t : State} (h : step s = .next t) :
    t = { s with status := t.status } ∨ ∃ i, fetchInstr s = .ok i ∧ exec i s = .next t := by
  rcases step_form h with ⟨-, rfl⟩ | ⟨-, k, -, rfl⟩ | ⟨-, i, hi, rfl⟩
  · exact .inl rfl
  · exact .inl rfl
  · exact .inr ⟨i, hi, exec_eq_settle i s⟩

/-! ### The relative base -/

theorem adjustRelativeBase_of_exec_rb_ne {i : Instr} {s t : State} (h : exec i s = .next t) (hrb : t.rb ≠ s.rb) :
    ∃ a, i = .adjustRelativeBase a := by
  by_contra hi
  exact hrb (exec_rb h fun a ha => hi ⟨a, ha⟩)

/-- Settles O27: a step that writes `rb` runs an instruction that does, and that is AdjustRelativeBase. -/
theorem onlyAdjustRelativeBaseWritesIt : Obligations.OnlyAdjustRelativeBaseWritesIt := by
  refine ⟨fun s t h hrb => ?_, fun _ _ _ => adjustRelativeBase_of_exec_rb_ne, fun v s act hact => ?_⟩
  · rcases step_latch_or_exec h with e | ⟨i, hi, hexec⟩
    · exact absurd (by rw [e]) hrb
    · obtain ⟨a, rfl⟩ := adjustRelativeBase_of_exec_rb_ne hexec hrb
      exact ⟨a, hi⟩
  · fin_cases hact <;> exact ⟨rfl, fun _ => rfl⟩

/-! ### The input queue -/

/-- A committed Input takes the head of the queue. -/
theorem exec_input_inq {c : Param} {s t : State} (h : exec (.input c) s = .next t) (hr : t.status = .ready) :
    ∃ v, s.inq = v :: t.inq := by
  obtain rfl := exec_next h
  obtain ⟨copy, n, hstage, hcommit⟩ := settle_ready hr
  obtain ⟨-, _, -, ⟨-, e⟩ | ⟨v, rest, _, hq, -, -, -, e⟩⟩ := inputStage_eq_ok.1 hstage <;> cases e
  exact ⟨v, by rw [hcommit]; exact hq⟩

theorem blind_withInput (q : List Atom) : Blind (State.withInput q) :=
  ⟨fun _ => rfl, fun _ => rfl, fun _ => rfl, fun _ => rfl, fun _ _ => rfl⟩

/-- Every stage but Input's does the same whatever `inq` holds. -/
theorem stageOf_withInput (q : List Atom) {i : Instr} (hi : ∀ c, i ≠ .input c) (s : State) :
    stageOf i (s.withInput q) = (stageOf i s).map (Ending.mapCopy (State.withInput q)) := by
  have hF := blind_withInput q
  cases i with
  | input c => exact absurd rfl (hi c)
  | add | mul | lessThan | equals => exact hF.binaryStage _ _ _ _ _ _
  | jumpIfTrue | jumpIfFalse => exact hF.jumpStage _ _ _ _ _
  | output => exact hF.outputStage (fun _ _ => rfl) _ _ _
  | adjustRelativeBase => exact hF.adjustStage (fun _ _ => rfl) _ _ _
  | halt => rfl

theorem exec_withInput (q : List Atom) {i : Instr} {s t : State} (h : exec i s = .next t) (hi : ∀ c, i ≠ .input c) :
    exec i (s.withInput q) = .next (t.withInput q) := by
  obtain rfl := exec_next h
  have hsettle := settle_comm (F := State.withInput q) (fun _ _ => rfl) (fun _ _ _ => rfl) s (stageOf i s)
  rw [exec_eq_settle, stageOf_withInput q hi, hsettle]

theorem step_inq {s t : State} (h : step s = .next t) :
    t.inq = s.inq ∨ ∃ c v, fetchInstr s = .ok (.input c) ∧ t.status = .ready ∧ s.inq = v :: t.inq := by
  rcases step_latch_or_exec h with e | ⟨i, hi, hexec⟩
  · exact .inl (by rw [e])
  · by_cases hin : ∃ c, i = .input c
    · obtain ⟨c, rfl⟩ := hin
      by_cases hr : t.status = .ready
      · obtain ⟨v, hv⟩ := exec_input_inq hexec hr
        exact .inr ⟨c, v, hi, hr, hv⟩
      · exact .inl (by rw [exec_unready hexec hr])
    · exact .inl (exec_inq hexec fun c hc => hin ⟨c, hc⟩)

/-- Settles O53, by what Input does to the queue and what every other instruction does not. -/
theorem inputQueueIsFirstInFirstOut : Obligations.InputQueueIsFirstInFirstOut := by
  refine ⟨fun _ _ => rfl, fun _ _ => step_inq, fun _ _ _ => exec_input_inq, fun _ _ _ => exec_inq,
    fun _ _ _ q => exec_withInput q, fun s q act hact => ?_⟩
  fin_cases hact <;> exact ⟨rfl, rfl⟩

/-! ### The output queue -/

theorem exec_output_outq {a : Param} {s t : State} (h : exec (.output a) s = .next t) (hr : t.status = .ready) :
    t.outq = s.outq ++ [BitVec.ofInt 64 (operandValue s a)] := by
  obtain rfl := exec_next h
  obtain ⟨copy, n, hstage, hcommit⟩ := settle_ready hr
  obtain ⟨-, x, _, hx, -, e⟩ := outputStage_eq_ok.1 hstage
  cases e
  rw [hcommit, State.commit_outq, ← hx, BitVec.ofInt_toInt]

/-- The state with `q` put before everything in its output queue. -/
def State.prependOutput (q : List Atom) (s : State) : State := { s with outq := q ++ s.outq }

theorem blind_prependOutput (q : List Atom) : Blind (State.prependOutput q) :=
  ⟨fun _ => rfl, fun _ => rfl, fun _ => rfl, fun _ => rfl, fun _ _ => rfl⟩

theorem State.prependOutput_pushOutput (q : List Atom) (s : State) (v : Atom) :
    (s.pushOutput v).prependOutput q = (s.prependOutput q).pushOutput v := by
  simp only [State.prependOutput, State.pushOutput, List.append_assoc]

theorem step_prependOutput (q : List Atom) {s t : State} (h : step s = .next t) :
    step (s.prependOutput q) = .next (t.prependOutput q) :=
  (blind_prependOutput q).step (popInput?_comm (fun _ => rfl) fun _ _ => rfl) (State.prependOutput_pushOutput q)
    (fun _ _ => rfl) (fun _ => rfl) (settle_comm (fun _ _ => rfl) fun _ _ _ => rfl) h

/-- A step from any output queue is the step from the empty one, with the queue put before what that step appends. -/
theorem step_outq {s t : State} (h : step s = .next t) (q : List Atom) :
    ∃ made, t.outq = s.outq ++ made ∧ step { s with outq := q } = .next { t with outq := q ++ made } := by
  obtain ⟨u, hu⟩ : ∃ u, step { s with outq := [] } = .next u := ⟨_, step_eq_stateAfterStep _⟩
  have from_queue : ∀ p, step { s with outq := p } = .next { u with outq := p ++ u.outq } := fun p => by
    simpa only [State.prependOutput, List.append_nil] using step_prependOutput p hu
  obtain rfl : t = { u with outq := s.outq ++ u.outq } := Host.Outcome.next.inj (h.symm.trans (from_queue s.outq))
  exact ⟨u.outq, rfl, from_queue q⟩

/-- Settles O54, by what Output appends and by `step_outq`. -/
theorem outputQueueIsWriteOnlyToTheProgram : Obligations.OutputQueueIsWriteOnlyToTheProgram :=
  ⟨fun _ _ _ => exec_output_outq, fun _ _ _ => exec_outq, fun _ => ⟨rfl, rfl⟩, fun _ _ q h => step_outq h q⟩

end Sys2Proof.Machine
end

section
/-! The state after reset (spec/10_state.md R32; spec/70_reset_and_hazards.md R210). -/

namespace Sys2Proof.Machine

/-- Settles O1: every field is written out in `State.reset`, and the empty tape reads 0 past its end, which is everywhere. -/
theorem resetHoldsTheSpecifiedValues : Obligations.ResetHoldsTheSpecifiedValues :=
  ⟨rfl, fun a => State.reset.mem.get_of_len_le (Nat.zero_le a), rfl, rfl, rfl, rfl, rfl, rfl, rfl⟩

theorem State.reset_inv : State.reset.Inv := ⟨State.reset_wf, Nat.zero_le _, fun _ _ => Nat.zero_le _⟩

/-- A Ready core has no latch to agree with. -/
theorem State.latchAgrees_of_ready {s : State} (h : s.status = .ready) : s.LatchAgrees := fun hne => absurd h hne

theorem State.standsWhereItStopped_of_ready {s : State} (h : s.status = .ready) : s.StandsWhereItStopped := by
  constructor <;> intro h' <;> rw [h] at h' <;> cases h'

/-- Settles O2: the empty tape is legal, and a Ready core has not stopped. -/
theorem resetSatisfiesTheInvariants : Obligations.ResetSatisfiesTheInvariants :=
  ⟨State.reset_inv, State.latchAgrees_of_ready rfl, State.standsWhereItStopped_of_ready rfl⟩

end Sys2Proof.Machine
end

section
/-! Consecutive cells (spec/20_memory.md R58); the two checks an access makes (R42 to R45), what it raises when one fails
and what it does to the tape when both pass; and the addresses that the modes give it (R51). -/

namespace Sys2Proof.Machine

/-! ### Consecutive cells -/

@[simp] theorem Memory.length_window (m : Memory) (a n : Nat) : (m.window a n).length = n := by
  rw [Memory.window, List.length_map, List.length_range]

theorem Memory.getElem_window (m : Memory) (a n : Nat) {k : Nat} (h : k < (m.window a n).length) :
    (m.window a n)[k] = m.get (a + k) := by
  simp only [Memory.window, List.getElem_map, List.getElem_range]

theorem Memory.window_succ (m : Memory) (a n : Nat) : m.window a (n + 1) = m.get a :: m.window (a + 1) n := by
  simp only [Memory.window, List.range_succ_eq_map, List.map_cons, List.map_map, Function.comp_def, Nat.add_zero,
    Nat.succ_eq_add_one, Nat.add_assoc, Nat.add_comm 1]

theorem Memory.take_window (m : Memory) (a : Nat) {k n : Nat} (h : k ≤ n) : (m.window a n).take k = m.window a k := by
  rw [Memory.window, ← List.map_take, List.take_range, Nat.min_eq_left h, Memory.window]

/-- Settles O57: `memory()` is the window of the whole tape. -/
theorem memoryViewListsTheTape : Obligations.MemoryViewListsTheTape := fun s =>
  ⟨rfl, s.mem.length_window 0 s.mem.len, fun a h =>
    (s.mem.getElem_window 0 s.mem.len h).trans (congrArg s.mem.get (Nat.zero_add a))⟩

/-! ### The checks of an access -/

section Checks

variable {s : State} {a : Atom} (kind : AccessKind)

theorem accessFailure_of_negative (h : a.toInt < 0) :
    accessFailure s a.toInt kind = some (.outOfBoundsAddress a kind) := by
  rw [accessFailure, if_pos h, BitVec.ofInt_toInt]

theorem accessFailure_of_admitted (h0 : 0 ≤ a.toInt) (hlim : limitAdmits s.cfg a.toNat = true) :
    accessFailure s a.toInt kind = none := by
  rw [accessFailure, if_neg (Int.not_lt.2 h0), toInt_toNat_of_nonneg h0, if_pos hlim]

theorem accessFailure_of_limit (h0 : 0 ≤ a.toInt) {l : Nat} (hcfg : s.cfg.memLimit = some l) (hl : l ≤ a.toNat) :
    accessFailure s a.toInt kind = some (.memoryLimitExceeded a) := by
  have hlim : ¬limitAdmits s.cfg a.toNat = true := by
    simpa only [limitAdmits, hcfg, decide_eq_true_eq, Nat.not_lt] using hl
  rw [accessFailure, if_neg (Int.not_lt.2 h0), toInt_toNat_of_nonneg h0, if_neg hlim, BitVec.ofInt_toInt]

end Checks

theorem memRead_of_admitted {s : State} {a : Atom} (h0 : 0 ≤ a.toInt) (hlim : limitAdmits s.cfg a.toNat = true) :
    memRead a s = .ok (s.mem.get a.toNat, s.setMem (s.mem.growTo (a.toNat + 1))) :=
  memRead_eq_ok.2 ⟨h0, hlim, rfl, rfl⟩

theorem memWrite_of_admitted {s : State} {a : Atom} (v : Atom) (h0 : 0 ≤ a.toInt)
    (hlim : limitAdmits s.cfg a.toNat = true) : memWrite a v s = .ok (s.setMem (s.mem.store a.toNat v)) :=
  memWrite_eq_ok.2 ⟨h0, hlim, rfl⟩

theorem sameCells_setMem_growTo (s : State) (l : Nat) : SameCells s (s.setMem (s.mem.growTo l)) :=
  fun a => s.mem.get_growTo l a

theorem storesOneCell_of_store {s t : State} {l d : Nat} {v : Atom} (h : t.mem = (s.mem.growTo l).store d v) :
    StoresOneCell s t d v.toInt := by
  refine ⟨?_, fun a ha => ?_⟩
  · rw [h, Memory.get_store, if_pos rfl]
  · rw [h, Memory.get_store, if_neg ha, Memory.get_growTo]

theorem storesOneCell_setMem_store (s : State) (d : Nat) (v : Atom) :
    StoresOneCell s (s.setMem (s.mem.store d v)) d v.toInt :=
  storesOneCell_of_store (l := 0) (by rw [growTo_zero, State.setMem_mem])

/-- Settles O15: a read grows the tape, a write grows it and stores, and at or beyond the limit both fail. -/
theorem readsAndWritesGrowTheTape : Obligations.ReadsAndWritesGrowTheTape := by
  refine fun a v s h0 => ⟨fun hlim => ⟨?read, fun hlen => s.mem.get_of_len_le hlen, ?write⟩, fun l hcfg hl => ?limit,
    fun hcfg => ?unbounded⟩
  case read =>
    exact ⟨_, memRead_of_admitted h0 hlim, s.mem.len_growTo _, sameCells_setMem_growTo s _, rfl⟩
  case write =>
    exact ⟨_, memWrite_of_admitted v h0 hlim, s.mem.len_store _ v, storesOneCell_setMem_store s _ v, rfl⟩
  case limit =>
    exact ⟨memRead_eq_error.2 (accessFailure_of_limit _ h0 hcfg hl),
      memWrite_eq_error.2 (accessFailure_of_limit _ h0 hcfg hl)⟩
  case unbounded =>
    rw [limitAdmits, hcfg]

/-! ### The addressing modes (spec/20_memory.md R51) -/

/-- A Relative read parameter reads the cell at the sum, where that is an atom. -/
theorem resolveRead_relative (w : Atom) {p e : Atom} {s : State} (h : e.toInt = p.toInt + s.rb.toInt) :
    resolveRead w ⟨.relative, p⟩ s = memRead e s :=
  bind_of_ok (checked_eq_ok.2 h)

theorem exists_checked_error (w : Atom) {v : Int} (h : ¬InAtom v) : ∃ k, checked w v = .error k :=
  ⟨.arithmeticOverflow w, checked_eq_error.2 (if_neg h)⟩

/-- Settles O16: the table row by row; resolving a read parameter does nothing but grow the tape. -/
theorem addressingModesResolveAsTabled : Obligations.AddressingModesResolveAsTabled := by
  refine fun w p e x s t => ⟨rfl, rfl, rfl, rfl, rfl, resolveRead_relative w, fun hread => ?cell, rfl, rfl,
    fun he => checked_eq_ok.2 he, fun q hq => ?frame⟩
  case cell =>
    obtain ⟨-, -, hx, -⟩ := memRead_eq_ok.1 hread
    exact hx
  case frame =>
    obtain ⟨-, -, rfl⟩ := resolveRead_eq_ok.1 hq
    exact ⟨rfl, rfl, sameCells_setMem_growTo s _, rfl, rfl⟩

/-! ### Negative addresses (spec/20_memory.md R42) -/

theorem step_of_fetchInstr_error {s : State} {k : ErrorKind} (hs : s.status.terminal = false)
    (h : fetchInstr s = .error k) : step s = .next { s with status := .error k } := by
  simp only [step, hs, h, Bool.false_eq_true, if_false, State.raise]

theorem step_of_fetchInstr_ok {s : State} {i : Instr} (hs : s.status.terminal = false) (h : fetchInstr s = .ok i) :
    step s = exec i s := by
  simp only [step, hs, h, Bool.false_eq_true, if_false]

theorem fetchInstr_of_negative_ip {s : State} (h : s.ip.toInt < 0) :
    fetchInstr s = .error (.outOfBoundsAddress s.ip .read) := by
  rw [fetchInstr_raises s, fetchChecks, firstFailure_cons, accessFailure_of_negative _ h, Option.some_or]

/-- Settles O14: the sign check of an access comes first, an admitted access is to the address given, and a sum that is no
atom is refused before any access. -/
theorem negativeAddressIsAlwaysAnError : Obligations.NegativeAddressIsAlwaysAnError := by
  refine fun a v w s => ⟨fun hneg => ?negative, fun h0 hlim => ?legal, fun p hp => ?sum⟩
  case negative =>
    have hread : memRead a s = .error (.outOfBoundsAddress a .read) :=
      memRead_eq_error.2 (accessFailure_of_negative _ hneg)
    refine ⟨hread, memWrite_eq_error.2 (accessFailure_of_negative _ hneg), hread, fun p hp => ?_, ?_⟩
    · rw [resolveRead_relative w hp.symm, hread]
    · rintro rfl hs
      exact step_of_fetchInstr_error hs (fetchInstr_of_negative_ip hneg)
  case legal =>
    obtain ⟨hcell, hothers⟩ := storesOneCell_setMem_store s a.toNat v
    exact ⟨⟨_, memRead_of_admitted h0 hlim⟩, _, memWrite_of_admitted v h0 hlim, BitVec.eq_of_toInt_eq hcell, hothers⟩
  case sum =>
    obtain ⟨k, hk⟩ := exists_checked_error w hp
    exact ⟨⟨k, bind_of_error hk⟩, k, hk⟩

end Sys2Proof.Machine
end

section
/-! The program image (spec/20_memory.md R53), and what instructions store (R46, R52): the memory frame of a step, and how
the next step sees the word stored (R57). -/

namespace Sys2Proof.Machine

/-! ### The program image -/

theorem get_fromProgram_of_lt (cfg : Config) (p : List Atom) {a : Nat} (h : a < p.length) :
    (fromProgram cfg p).mem.get a = p[a] := by
  have hin : 0 ≤ a ∧ a < 0 + p.length := ⟨Nat.zero_le a, by rwa [Nat.zero_add]⟩
  rw [fromProgram, programImage, Memory.get_storeList, if_pos hin, Nat.sub_zero, List.getD_eq_getElem p 0 h]

theorem get_fromProgram_of_length_le (cfg : Config) (p : List Atom) {a : Nat} (h : p.length ≤ a) :
    (fromProgram cfg p).mem.get a = 0 := by
  have hout : ¬(0 ≤ a ∧ a < 0 + p.length) := by omega
  rw [fromProgram, programImage, Memory.get_storeList, if_neg hout]
  exact Memory.get_of_len_le _ (Nat.zero_le a)

/-- Without a reset among them, host actions leave every cell that none of their steps writes. -/
theorem get_performAll_of_not_written {acts : List HostAction} (hacts : ∀ q, HostAction.reset q ∉ acts) {s : State}
    {a : Nat} (h : a ∉ cellsWrittenByAll acts s) : (performAll acts s).mem.get a = s.mem.get a := by
  induction acts generalizing s with
  | nil => rfl
  | cons act acts ih =>
    rw [cellsWrittenByAll, List.mem_append, not_or] at h
    obtain ⟨hfirst, hrest⟩ := h
    have hact : ∀ q, act ≠ .reset q := fun q e => hacts q (e ▸ List.mem_cons_self)
    have hreset : ∀ q, HostAction.reset q ∉ acts := fun q hq => hacts q (List.mem_cons_of_mem act hq)
    rw [performAll, ih hreset hrest, get_perform_of_not_written hact hfirst]

theorem get_performAll_fromProgram {acts : List HostAction} (hacts : ∀ q, HostAction.reset q ∉ acts) (cfg : Config)
    {p : List Atom} {a : Nat} (ha : p.length ≤ a) (h : a ∉ cellsWrittenByAll acts (fromProgram cfg p)) :
    (performAll acts (fromProgram cfg p)).mem.get a = 0 := by
  rw [get_performAll_of_not_written hacts h, get_fromProgram_of_length_le cfg p ha]

/-- Settles O3: the image is read back, and a reset is a construction. -/
theorem constructionPlacesTheProgramImage : Obligations.ConstructionPlacesTheProgramImage := fun cfg p s =>
  ⟨fun _ => get_fromProgram_of_lt cfg p, fun _ => get_fromProgram_of_length_le cfg p, rfl,
    fun _ => get_fromProgram_of_lt s.cfg p, fun _ => get_fromProgram_of_length_le s.cfg p, rfl,
    fun _ hacts _ ha => ⟨get_performAll_fromProgram hacts cfg ha, get_performAll_fromProgram hacts s.cfg ha⟩⟩

/-! ### What an instruction stores -/

/-- A committed instruction with a write parameter stores its value at the effective address, which it may access. -/
theorem exec_stores {i : Instr} {c : Param} {s t : State} (hw : writeParam? i = some c) (h : exec i s = .next t)
    (hr : t.status = .ready) :
    ∃ d v : Atom, d.toInt = effectiveAddress s c ∧ 0 ≤ d.toInt ∧ limitAdmits s.cfg d.toNat = true ∧
      storedValue s i = some v.toInt ∧ StoresOneCell s t d.toNat v.toInt := by
  obtain rfl := exec_next h
  obtain ⟨copy, n, hstage, hcommit⟩ := settle_ready hr
  obtain ⟨l, d, v, hd, h0, hlim, hv, hmem⟩ := stageOf_stores hw hstage
  exact ⟨d, v, hd, h0, hlim, hv, storesOneCell_of_store (by rw [hcommit, State.commit_mem, hmem])⟩

theorem exec_sameCells {i : Instr} {s t : State} (hw : writeParam? i = none) (h : exec i s = .next t) :
    SameCells s t := by
  intro a
  by_cases hr : t.status = .ready
  · obtain rfl := exec_next h
    obtain ⟨copy, n, hstage, hcommit⟩ := settle_ready hr
    obtain ⟨l, hl⟩ := stageOf_grows hw hstage
    rw [hcommit, State.commit_mem, hl, Memory.get_growTo]
  · rw [exec_unready h hr]

theorem exec_get_of_ne {i : Instr} {c : Param} {s t : State} (hw : writeParam? i = some c) (h : exec i s = .next t)
    {a : Nat} (ha : (a : Int) ≠ effectiveAddress s c) : t.mem.get a = s.mem.get a := by
  by_cases hr : t.status = .ready
  · obtain ⟨d, v, hd, h0, -, -, -, hothers⟩ := exec_stores hw h hr
    refine hothers a fun had => ha ?_
    rw [had, ← hd, toInt_eq_toNat_of_nonneg h0]
  · rw [exec_unready h hr]

theorem step_mem_of_unready {s t : State} (h : step s = .next t) (hr : t.status ≠ .ready) : t.mem = s.mem := by
  rcases step_latch_or_exec h with e | ⟨i, -, hexec⟩
  · rw [e]
  · rw [exec_unready hexec hr]

/-- Settles O26: instructions with and without a write parameter, and the steps that do not commit. -/
theorem stepTouchesOnlyTheWriteParametersCell : Obligations.StepTouchesOnlyTheWriteParametersCell := by
  refine fun s t a b c => ⟨fun i hi => exec_sameCells ?_, fun i hi h d => exec_get_of_ne ?_ h, step_mem_of_unready⟩
  · fin_cases hi <;> rfl
  · fin_cases hi <;> rfl

/-! ### What the next step fetches -/

theorem Accessible.mono {s : State} {u v : Int} (h : Accessible s v) (h0 : 0 ≤ u) (huv : u ≤ v) : Accessible s u := by
  obtain ⟨-, htop, hlim⟩ := h
  exact ⟨h0, huv.trans htop, limitAdmits_mono hlim (Int.toNat_le_toNat huv)⟩

/-- An accessible word that does not decode is the error of the fetch. -/
theorem fetchInstr_of_decodeWord_error {s : State} {k : ErrorKind} (h0 : 0 ≤ s.ip.toInt)
    (hlim : limitAdmits s.cfg s.ip.toNat = true) (hk : decodeWord (s.mem.get s.ip.toNat) = .error k) :
    fetchInstr s = .error k := by
  have hfail : decodeFailure (s.mem.get s.ip.toNat) = some k := by rw [decodeFailure, hk]
  rw [fetchInstr_raises s, fetchChecks, firstFailure_cons, accessFailure_of_admitted _ h0 hlim, Option.none_or,
    firstFailure_cons, hfail, Option.some_or]

theorem decodeWord_99 :
    decodeWord 99 = .ok ⟨⟨99, .halt, 0, none⟩, .position, .position, .position⟩ := by
  decide

theorem fetchInstr_of_99 {s : State} (h0 : 0 ≤ s.ip.toInt) (hlim : limitAdmits s.cfg s.ip.toNat = true)
    (h99 : s.mem.get s.ip.toNat = 99) : fetchInstr s = .ok .halt :=
  fetchInstr_eq_ok.2 ⟨h0, hlim, _, (congrArg decodeWord h99).trans decodeWord_99, nofun, rfl⟩

/-- A decoded word takes as many parameter words as its arity, in order. -/
theorem map_raw_params_instr {w : Atom} {h : Header} (hd : decodeWord w = .ok h) (ps : List Atom) :
    (h.instr ps).params.map Param.raw = (List.range h.row.arity).map fun k => ps.getD k 0 := by
  obtain ⟨hmem, -⟩ := word_of_decodeWord hd
  obtain ⟨row, m1, m2, m3⟩ := h
  fin_cases hmem <;> rfl

/-- Given exactly as many atoms as its arity, they are its parameter words. -/
theorem map_raw_params_instr_of_length {w : Atom} {h : Header} (hd : decodeWord w = .ok h) {ps : List Atom}
    (hps : ps.length = h.row.arity) : (h.instr ps).params.map Param.raw = ps := by
  rw [map_raw_params_instr hd, ← hps]
  refine List.ext_getElem (by simp) fun k _ hk => ?_
  simp [hk]

/-- What decodes is the encoding of the instruction it decodes to, and the atoms after it. -/
theorem encode_append_of_decode {ws : List Atom} {i : Instr} {rest : List Atom} (h : decode ws = .ok (i, rest)) :
    encode i ++ rest = ws := by
  cases ws with
  | nil => cases h
  | cons w ws =>
    obtain ⟨hd, hdec, har, rfl, rfl⟩ := decode_cons_eq_ok.1 h
    obtain ⟨-, hword⟩ := instr_of_decodeWord hdec (ws.take hd.row.arity)
    rw [encode, hword, map_raw_params_instr_of_length hdec (List.length_take_of_le har),
      List.cons_append, List.take_append_drop]

/-- If the cells at `ip` decode, and the first and the last of the instruction's atoms are accessible, the fetch answers
the instruction they decode to. -/
theorem fetchInstr_of_decode_window {s : State} {i : Instr} {rest : List Atom} (h0 : 0 ≤ s.ip.toInt)
    (hlast : Accessible s (s.ip.toInt + i.params.length))
    (h : decode (s.mem.window s.ip.toNat 4) = .ok (i, rest)) : fetchInstr s = .ok i := by
  rw [Memory.window_succ] at h
  obtain ⟨hd, hdec, har, rfl, -⟩ := decode_cons_eq_ok.1 h
  rw [Memory.length_window] at har
  rw [(arity_of_decodeWord hdec _).1] at hlast
  have hip : s.ip.toInt = s.ip.toNat := toInt_eq_toNat_of_nonneg h0
  obtain ⟨-, -, hlim⟩ := hlast.mono h0 (by omega)
  rw [toInt_toNat_of_nonneg h0] at hlim
  refine fetchInstr_eq_ok.2 ⟨h0, hlim, hd, hdec, fun j hj => hlast.mono (by omega) (by omega), ?_⟩
  rw [Memory.take_window _ _ har, Memory.window]
  congr 1
  refine List.map_congr_left fun j _ => ?_
  congr 1
  omega

/-- The cells that make an instruction are its encoding. -/
theorem getElem?_encode_of_decode_window {m : Memory} {a n : Nat} {i : Instr} {rest : List Atom}
    (h : decode (m.window a 4) = .ok (i, rest)) (hn : n < (encode i).length) :
    (encode i)[n]? = some (m.get (a + n)) := by
  have henc := encode_append_of_decode h
  have hlen : n < (m.window a 4).length := by
    rw [← henc, List.length_append]
    exact Nat.lt_add_right _ hn
  rw [← List.getElem?_append_left (l₂ := rest) hn, henc, List.getElem?_eq_getElem hlen, Memory.getElem_window]

/-- Settles O46: the stored word is the cell at an accessible address, and the next step fetches what the cells hold. -/
theorem storedWordIsTheNextInstruction : Obligations.StoredWordIsTheNextInstruction := by
  intro i c s t hw h hr
  obtain ⟨d, w, hd, h0, hlim, hv, hcell, -⟩ := exec_stores hw h hr
  have hlive : t.status.terminal = false := by rw [hr]; rfl
  have hget : t.mem.get d.toNat = w := BitVec.eq_of_toInt_eq hcell
  refine ⟨w, hv, ?cell, fun hip => ?word, fun n j rest hn hlen hip0 hlast hdec => ?instr⟩
  case cell => rw [← hd, toInt_toNat_of_nonneg h0, hget]
  case word =>
    obtain rfl : d = t.ip := BitVec.eq_of_toInt_eq (hd.trans hip)
    rw [← exec_cfg h] at hlim
    refine ⟨fun k hk => ?_, fun h99 => ?_⟩
    · exact step_of_fetchInstr_error hlive (fetchInstr_of_decodeWord_error h0 hlim (hget.symm ▸ hk))
    · exact step_of_fetchInstr_ok hlive (fetchInstr_of_99 h0 hlim (hget.trans h99))
  case instr =>
    have hplace : t.ip.toNat + n = d.toNat := by
      have hdn := toInt_eq_toNat_of_nonneg h0
      have hipn := toInt_eq_toNat_of_nonneg hip0
      omega
    refine ⟨step_of_fetchInstr_ok hlive (fetchInstr_of_decode_window hip0 hlast hdec), ?_⟩
    rw [getElem?_encode_of_decode_window hdec hlen, hplace, hget]

end Sys2Proof.Machine
end

section
/-! The decoder and the encoder as inverses (spec/30_encoding.md R61 to R68, R73): a word decodes to a header exactly if the
header is one the opcode map admits and the word is packed from it. -/

namespace Sys2Proof

open Sys2Proof.Machine

/-! ### Headers the opcode map admits -/

/-- The modes parameter `k` of a row may have: Position beyond the arity, where the digit is 0 (R66, R68), and no Immediate
write parameter (R67). -/
def OpcodeRow.modes (r : OpcodeRow) (k : Nat) : List Mode :=
  if r.arity < k then [.position]
  else if r.writeParam = some k then [.position, .relative]
  else [.position, .immediate, .relative]

theorem OpcodeRow.mem_modes {r : OpcodeRow} {k : Nat} {m : Mode} :
    m ∈ r.modes k ↔ (r.arity < k → m = .position) ∧ (r.writeParam = some k → m ≠ .immediate) := by
  unfold OpcodeRow.modes
  split
  · cases m <;> simp [*]
  · split
    · cases m <;> simp [*]
    · cases m <;> simp [*]

/-- A header with a row of the opcode map and modes which that row admits. -/
def Header.Legal (h : Header) : Prop :=
  h.row ∈ opcodeMap ∧ h.m1 ∈ h.row.modes 1 ∧ h.m2 ∈ h.row.modes 2 ∧ h.m3 ∈ h.row.modes 3

theorem opcodeMap_bounds {r : OpcodeRow} (hr : r ∈ opcodeMap) :
    r.digits < 100 ∧ r.arity ≤ 3 ∧ ∀ k, r.writeParam = some k → 1 ≤ k ∧ k ≤ r.arity := by
  fin_cases hr <;> simp

theorem Header.forall_modeOf {h : Header} {P : Nat → Mode → Prop} :
    (∀ k, 1 ≤ k → k ≤ 3 → P k (h.modeOf k)) ↔ P 1 h.m1 ∧ P 2 h.m2 ∧ P 3 h.m3 := by
  refine ⟨fun hP => ⟨hP 1 (by decide) (by decide), hP 2 (by decide) (by decide), hP 3 (by decide) (by decide)⟩, ?_⟩
  rintro ⟨h1, h2, h3⟩ k hk hk'
  obtain rfl | rfl | rfl : k = 1 ∨ k = 2 ∨ k = 3 := by omega
  · exact h1
  · exact h2
  · exact h3

/-- Every mode beyond the arity is Position, the mode of a digit that is 0 (R66, R68). -/
def Header.Padded (h : Header) : Prop := ∀ k, 1 ≤ k → k ≤ 3 → h.row.arity < k → h.modeOf k = .position

theorem Header.padded_iff {h : Header} :
    h.Padded ↔ (h.row.arity < 1 → h.m1 = .position) ∧ (h.row.arity < 2 → h.m2 = .position) ∧
      (h.row.arity < 3 → h.m3 = .position) :=
  Header.forall_modeOf (P := fun k m => h.row.arity < k → m = .position)

theorem Header.writesImmediate_iff {h : Header} :
    h.writesImmediate = true ↔ ∃ k, h.row.writeParam = some k ∧ h.modeOf k = .immediate := by
  unfold Header.writesImmediate
  cases h.row.writeParam <;> simp

/-- Padding beyond the arity and the check of the write parameter are what makes a header legal. -/
theorem Header.legal_iff {h : Header} :
    h.Legal ↔ h.row ∈ opcodeMap ∧ h.Padded ∧ h.writesImmediate = false := by
  unfold Header.Legal
  rw [← Header.forall_modeOf (P := fun k m => m ∈ h.row.modes k), ← Bool.not_eq_true, Header.writesImmediate_iff]
  simp only [OpcodeRow.mem_modes]
  refine and_congr_right fun hr => ?_
  obtain ⟨-, har, hwp⟩ := opcodeMap_bounds hr
  constructor
  · intro hk
    refine ⟨fun k h1 h3 => (hk k h1 h3).1, ?_⟩
    rintro ⟨k, hwk, himm⟩
    obtain ⟨h1, hle⟩ := hwp k hwk
    exact (hk k h1 (hle.trans har)).2 hwk himm
  · rintro ⟨hpad, hw⟩ k h1 h3
    exact ⟨hpad k h1 h3, fun hwk himm => hw ⟨k, hwk, himm⟩⟩

/-! ### The word of a header -/

/-- The digits of a header, packed (R61). -/
def Header.packed (h : Header) : Nat := packWord h.row.digits [h.m1, h.m2, h.m3]

/-- The word packed from a header. -/
def Header.word (h : Header) : Atom := BitVec.ofNat 64 h.packed

theorem Header.packed_eq (h : Header) :
    h.packed = h.row.digits + 100 * h.m1.digit + 1000 * h.m2.digit + 10000 * h.m3.digit := rfl

theorem Mode.digit_le_two (m : Mode) : m.digit ≤ 2 := by cases m <;> decide

theorem Mode.digit_eq_zero {m : Mode} : m.digit = 0 ↔ m = .position := by cases m <;> decide

theorem Mode.digit_eq_one {m : Mode} : m.digit = 1 ↔ m = .immediate := by cases m <;> decide

theorem val_digit (k n : Nat) : (digit k n).val = n / 10 ^ k % 10 := rfl

section Word

variable {h : Header} (hr : h.row ∈ opcodeMap)

include hr

theorem Header.packed_lt : h.packed < 22300 := by
  obtain ⟨hd, -⟩ := opcodeMap_bounds hr
  have h1 := h.m1.digit_le_two
  have h2 := h.m2.digit_le_two
  have h3 := h.m3.digit_le_two
  rw [Header.packed_eq]
  omega

theorem Header.toNat_word : h.word.toNat = h.packed := by
  have hlt := Header.packed_lt hr
  rw [Header.word, BitVec.toNat_ofNat, Nat.mod_eq_of_lt (by omega)]

theorem Header.toInt_word_nonneg : 0 ≤ h.word.toInt := by
  have hlt := Header.packed_lt hr
  have hnat := Header.toNat_word hr
  rw [BitVec.toInt_eq_toNat_of_lt (by omega)]
  omega

/-- The opcode digits of a packed word. -/
theorem Header.packed_mod : h.packed % 100 = h.row.digits := by
  obtain ⟨hd, -⟩ := opcodeMap_bounds hr
  rw [Header.packed_eq]
  omega

/-- The mode digits of a packed word. -/
theorem Header.digit_packed :
    (digit 2 h.packed).val = h.m1.digit ∧ (digit 3 h.packed).val = h.m2.digit ∧
      (digit 4 h.packed).val = h.m3.digit := by
  obtain ⟨hd, -⟩ := opcodeMap_bounds hr
  have h1 := h.m1.digit_le_two
  have h2 := h.m2.digit_le_two
  have h3 := h.m3.digit_le_two
  simp only [val_digit, Header.packed_eq]
  omega

/-- With modes beyond the arity Position, no digit beyond the arity is written. -/
theorem Header.packed_div (hpad : h.Padded) :
    h.packed / (100 * 10 ^ h.row.arity) = 0 := by
  obtain ⟨hd, har, -⟩ := opcodeMap_bounds hr
  obtain ⟨p1, p2, p3⟩ := Header.padded_iff.1 hpad
  simp only [← Mode.digit_eq_zero] at p1 p2 p3
  have h1 := h.m1.digit_le_two
  have h2 := h.m2.digit_le_two
  have h3 := h.m3.digit_le_two
  rw [Header.packed_eq]
  refine Nat.div_eq_of_lt ?_
  generalize h.row.arity = n at *
  obtain rfl | rfl | rfl | rfl : n = 0 ∨ n = 1 ∨ n = 2 ∨ n = 3 := by omega
  · omega
  · omega
  · omega
  · omega

end Word

/-- A word decodes to a header exactly if the header is legal and the word is packed from it. -/
theorem decodeWord_eq_ok_iff_legal {w : Atom} {h : Header} : decodeWord w = .ok h ↔ h.Legal ∧ w = h.word := by
  constructor
  · intro hd
    obtain ⟨hr, hw, p3, p2, p1⟩ := word_of_decodeWord hd
    obtain ⟨-, -, -, -, -, -, himm⟩ := decodeWord_eq_ok.1 hd
    exact ⟨Header.legal_iff.2 ⟨hr, Header.padded_iff.2 ⟨p1, p2, p3⟩, himm⟩, hw⟩
  · rintro ⟨hlegal, rfl⟩
    obtain ⟨hr, hpad, himm⟩ := Header.legal_iff.1 hlegal
    obtain ⟨d1, d2, d3⟩ := Header.digit_packed hr
    rw [decodeWord_eq_ok, Header.toNat_word hr]
    exact ⟨Header.toInt_word_nonneg hr, rowOfDigits?_eq_some.2 ⟨hr, (Header.packed_mod hr).symm⟩, d1, d2, d3,
      Header.packed_div hr hpad, himm⟩

/-- A padded header with an Immediate write parameter is refused as such. -/
theorem decodeWord_word_of_writesImmediate {h : Header} (hr : h.row ∈ opcodeMap)
    (hpad : h.Padded) (himm : h.writesImmediate = true) : decodeWord h.word = .error (.badParameterMode 1) := by
  obtain ⟨d1, d2, d3⟩ := Header.digit_packed hr
  rw [decodeWord_eq_error, Header.toNat_word hr]
  exact .inr (.inr ⟨Header.toInt_word_nonneg hr, h.row, rowOfDigits?_eq_some.2 ⟨hr, (Header.packed_mod hr).symm⟩,
    .inr (.inr (.inr ⟨_, _, _, d1, d2, d3, .inr ⟨Header.packed_div hr hpad, himm, rfl⟩⟩))⟩)

/-! ### The header of an instruction -/

/-- The row of the opcode map with an opcode (R62). -/
def Opcode.row : Opcode → OpcodeRow
  | .add => ⟨1, .add, 3, some 3⟩
  | .multiply => ⟨2, .multiply, 3, some 3⟩
  | .input => ⟨3, .input, 1, some 1⟩
  | .output => ⟨4, .output, 1, none⟩
  | .jumpIfTrue => ⟨5, .jumpIfTrue, 2, none⟩
  | .jumpIfFalse => ⟨6, .jumpIfFalse, 2, none⟩
  | .lessThan => ⟨7, .lessThan, 3, some 3⟩
  | .equals => ⟨8, .equals, 3, some 3⟩
  | .adjustRelativeBase => ⟨9, .adjustRelativeBase, 1, none⟩
  | .halt => ⟨99, .halt, 0, none⟩

theorem Opcode.row_mem (op : Opcode) : op.row ∈ opcodeMap := by cases op <;> decide

/-- The header of an instruction: its opcode's row and its modes, Position beyond the arity (R66). -/
def Instr.header (i : Instr) : Header :=
  ⟨i.opcode.row, (i.params.map Param.mode).getD 0 .position, (i.params.map Param.mode).getD 1 .position,
    (i.params.map Param.mode).getD 2 .position⟩

/-- The encoder packs the header. -/
theorem encodeWord_eq_word (i : Instr) : encodeWord i = i.header.word := by cases i <;> rfl

theorem Instr.header_arity (i : Instr) : i.header.row.arity = i.params.length := by cases i <;> rfl

theorem Instr.header_padded (i : Instr) : i.header.Padded := by
  have beyond : ∀ k, i.params.length ≤ k → (i.params.map Param.mode).getD k .position = .position :=
    fun k hk => List.getD_eq_default _ _ (by rwa [List.length_map])
  rw [Header.padded_iff, i.header_arity]
  exact
    ⟨fun h => beyond 0 (Nat.le_of_lt_succ h), fun h => beyond 1 (Nat.le_of_lt_succ h),
      fun h => beyond 2 (Nat.le_of_lt_succ h)⟩

/-- The decoder's check of the write parameter is well-formedness (R67). -/
theorem Instr.header_writesImmediate (i : Instr) : i.header.writesImmediate = !i.wellFormed := by
  cases i with
  | add | mul | input | lessThan | equals => exact (Bool.not_not _).symm
  | output | jumpIfTrue | jumpIfFalse | adjustRelativeBase | halt => rfl

theorem decodeWord_encodeWord {i : Instr} (hi : i.wellFormed = true) : decodeWord (encodeWord i) = .ok i.header := by
  have himm : i.header.writesImmediate = false := by rw [i.header_writesImmediate, hi, Bool.not_true]
  rw [encodeWord_eq_word, decodeWord_eq_ok_iff_legal]
  exact ⟨Header.legal_iff.2 ⟨i.opcode.row_mem, i.header_padded, himm⟩, rfl⟩

theorem decodeWord_encodeWord_of_not_wellFormed {i : Instr} (hi : i.wellFormed = false) :
    decodeWord (encodeWord i) = .error (.badParameterMode 1) := by
  have himm : i.header.writesImmediate = true := by rw [i.header_writesImmediate, hi, Bool.not_false]
  rw [encodeWord_eq_word]
  exact decodeWord_word_of_writesImmediate i.opcode.row_mem i.header_padded himm

/-- The header of an instruction and its parameter words make that instruction. -/
theorem Instr.header_instr (i : Instr) : i.header.instr (i.params.map Param.raw) = i := by cases i <;> rfl

/-! ### The two round trips -/

/-- Settles O6: the word decodes to the instruction's header, and as many atoms as its parameters follow. -/
theorem decodeInvertsEncode : Obligations.DecodeInvertsEncode := by
  intro i rest hi
  have hlen : i.header.row.arity = (i.params.map Param.raw).length := by rw [i.header_arity, List.length_map]
  rw [encode, List.cons_append]
  refine decode_cons_eq_ok.2 ⟨i.header, decodeWord_encodeWord hi, ?_, ?_, ?_⟩
  · rw [hlen, List.length_append]
    exact Nat.le_add_right _ _
  · rw [hlen, List.take_left, i.header_instr]
  · rw [hlen, List.drop_left]

theorem wellFormed_of_decode {ws : List Atom} {i : Instr} {rest : List Atom} (h : decode ws = .ok (i, rest)) :
    i.wellFormed = true := by
  cases ws with
  | nil => cases h
  | cons w ws =>
    obtain ⟨hd, hdec, -, rfl, -⟩ := decode_cons_eq_ok.1 h
    obtain ⟨hwf, -⟩ := instr_of_decodeWord hdec (ws.take hd.row.arity)
    exact hwf

/-- Settles O7: what decodes is well-formed, and its encoding is what was decoded. -/
theorem encodeInvertsDecode : Obligations.EncodeInvertsDecode := fun _ _ _ h =>
  ⟨wellFormed_of_decode h, (encode_append_of_decode h).symm⟩

/-- Settles O11: an instruction that writes through an Immediate parameter is not well-formed. -/
theorem immediateWriteParameterIsRefused : Obligations.ImmediateWriteParameterIsRefused := fun _ _ _ =>
  ⟨decodeWord_encodeWord_of_not_wellFormed rfl, decodeWord_encodeWord_of_not_wellFormed rfl,
    decodeWord_encodeWord_of_not_wellFormed rfl, decodeWord_encodeWord_of_not_wellFormed rfl,
    decodeWord_encodeWord_of_not_wellFormed rfl⟩

/-- Settles O5, by running the decoder on the ten words. -/
theorem writtenOutWordsDecode : Obligations.WrittenOutWordsDecode := by
  unfold Obligations.WrittenOutWordsDecode
  decide

end Sys2Proof
end

section
/-! The set of legal words (spec/30_encoding.md R73), the causes of the decoder's errors (R64), and missing mode digits
(R66). -/

namespace Sys2Proof

open Sys2Proof.Machine

/-! ### The table of legal words -/

/-- The table of R73 is the opcode map with the digits of the modes that each row admits. -/
theorem legalRows_eq : legalRows = opcodeMap.map fun r =>
    (r.digits, (r.modes 1).map Mode.digit, (r.modes 2).map Mode.digit, (r.modes 3).map Mode.digit) := by
  decide

theorem mem_legalWords {n : Nat} : n ∈ legalWords ↔ ∃ h : Header, h.Legal ∧ n = h.packed := by
  simp only [legalWords, legalRows_eq, List.flatMap_map, List.mem_flatMap, List.mem_map]
  constructor
  · rintro ⟨r, hr, m3, h3, m2, h2, _, ⟨m1, h1, rfl⟩, rfl⟩
    exact ⟨⟨r, m1, m2, m3⟩, ⟨hr, h1, h2, h3⟩, rfl⟩
  · rintro ⟨⟨r, m1, m2, m3⟩, ⟨hr, h1, h2, h3⟩, rfl⟩
    exact ⟨r, hr, m3, h3, m2, h2, _, ⟨m1, h1, rfl⟩, rfl⟩

/-- Settles O8: the words that decode and the words of the table are both the words of the legal headers. -/
theorem legalWordsAreExactlyTheTable : Obligations.LegalWordsAreExactlyTheTable := by
  refine ⟨by decide, by decide, fun w => ?_⟩
  simp only [decodeWord_eq_ok_iff_legal, mem_legalWords]
  constructor
  · rintro ⟨h, hlegal, rfl⟩
    have hr : h.row ∈ opcodeMap := hlegal.1
    exact ⟨Header.toInt_word_nonneg hr, h, hlegal, Header.toNat_word hr⟩
  · rintro ⟨-, h, hlegal, hw⟩
    have hword : w = h.word := by rw [Header.word, ← hw, BitVec.ofNat_toNat, BitVec.setWidth_eq]
    exact ⟨h, hlegal, hword⟩

/-! ### Missing mode digits -/

/-- The mode digits of a word are those of a header, place by place. -/
def Header.DigitsIn (h : Header) (n : Nat) : Prop :=
  ∀ k, 1 ≤ k → k ≤ 3 → (digit (k + 1) n).val = (h.modeOf k).digit

theorem Header.digitsIn_iff {h : Header} {n : Nat} :
    h.DigitsIn n ↔ (digit 2 n).val = h.m1.digit ∧ (digit 3 n).val = h.m2.digit ∧ (digit 4 n).val = h.m3.digit :=
  Header.forall_modeOf (P := fun k m => (digit (k + 1) n).val = m.digit)

theorem digitsIn_of_decodeWord {w : Atom} {h : Header} (hd : decodeWord w = .ok h) : h.DigitsIn w.toNat := by
  obtain ⟨-, -, d1, d2, d3, -⟩ := decodeWord_eq_ok.1 hd
  exact Header.digitsIn_iff.2 ⟨d1, d2, d3⟩

theorem digit_of_lt {k n : Nat} (h : n < 10 ^ k) : (digit k n).val = 0 := by
  rw [val_digit, Nat.div_eq_of_lt h]

/-- Settles O10: a digit that is not written is 0, the digit of Position. -/
theorem missingModeDigitMeansPosition : Obligations.MissingModeDigitMeansPosition := by
  refine ⟨fun w h hd k h1 h3 hlt => ?_,
    ⟨⟨1, .add, 3, some 3⟩, .position, .immediate, .position⟩, by decide, rfl, rfl, rfl, rfl⟩
  rw [← Mode.digit_eq_zero, ← digitsIn_of_decodeWord hd k h1 h3, digit_of_lt hlt]

/-! ### The causes of the decoder's errors -/

/-- In the terms of the digits read: the write parameter is Immediate if its mode digit is 1. -/
theorem Header.DigitsIn.writesImmediate_iff {h : Header} {n : Nat} (hd : h.DigitsIn n) (hr : h.row ∈ opcodeMap) :
    h.writesImmediate = true ↔ ∃ k, h.row.writeParam = some k ∧ (digit (k + 1) n).val = 1 := by
  obtain ⟨-, har, hwp⟩ := opcodeMap_bounds hr
  rw [Header.writesImmediate_iff]
  refine exists_congr fun k => and_congr_right fun hk => ?_
  obtain ⟨h1, hle⟩ := hwp k hk
  rw [hd k h1 (hle.trans har), Mode.digit_eq_one]

theorem exists_mode_of_digit {g : Fin 10} : (∃ m : Mode, g.val = m.digit) ↔ g.val ≤ 2 := by
  constructor
  · rintro ⟨m, hm⟩
    exact hm ▸ m.digit_le_two
  · intro hg
    obtain h | h | h : g.val = 0 ∨ g.val = 1 ∨ g.val = 2 := by omega
    · exact ⟨.position, h⟩
    · exact ⟨.immediate, h⟩
    · exact ⟨.relative, h⟩

/-- The first of three digits that is no mode. -/
theorem find?_three_eq_some {x y z g : Fin 10} :
    [x, y, z].find? (fun d => decide (2 < d.val)) = some g ↔
      2 < x.val ∧ g = x ∨ x.val ≤ 2 ∧ 2 < y.val ∧ g = y ∨ x.val ≤ 2 ∧ y.val ≤ 2 ∧ 2 < z.val ∧ g = z := by
  by_cases hx : 2 < x.val
  · simp [hx, Nat.not_le.2 hx, eq_comm]
  by_cases hy : 2 < y.val
  · simp [hx, hy, Nat.not_lt.1 hx, Nat.not_le.2 hy, eq_comm]
  by_cases hz : 2 < z.val
  · simp [hx, hy, hz, Nat.not_lt.1 hx, Nat.not_lt.1 hy, eq_comm]
  · simp [hx, hy, hz]

/-- What can be wrong with the mode digits and the excess digits of a word whose opcode digits name the row `r`, in the
order of R64. -/
def DigitFault (w : Atom) (r : OpcodeRow) (k : ErrorKind) : Prop :=
  (∃ g, [digit 2 w.toNat, digit 3 w.toNat, digit 4 w.toNat].find? (fun d => decide (2 < d.val)) = some g ∧
      k = .badParameterMode g) ∨
    (digit 2 w.toNat).val ≤ 2 ∧ (digit 3 w.toNat).val ≤ 2 ∧ (digit 4 w.toNat).val ≤ 2 ∧
      (w.toNat / (100 * 10 ^ r.arity) ≠ 0 ∧ k = .malformedInstruction w ∨
        w.toNat / (100 * 10 ^ r.arity) = 0 ∧ k = .badParameterMode 1 ∧
          ∃ j, r.writeParam = some j ∧ (digit (j + 1) w.toNat).val = 1)

/-- The decoder's errors on a word whose opcode digits name a row are the faults of its digits. -/
theorem digitFault_iff {w : Atom} {r : OpcodeRow} (hr : r ∈ opcodeMap) {k : ErrorKind} :
    DigitFault w r k ↔
      2 < (digit 2 w.toNat).val ∧ k = .badParameterMode (digit 2 w.toNat) ∨
        (digit 2 w.toNat).val ≤ 2 ∧ 2 < (digit 3 w.toNat).val ∧ k = .badParameterMode (digit 3 w.toNat) ∨
          (digit 2 w.toNat).val ≤ 2 ∧ (digit 3 w.toNat).val ≤ 2 ∧ 2 < (digit 4 w.toNat).val ∧
            k = .badParameterMode (digit 4 w.toNat) ∨
            ∃ m1 m2 m3 : Mode, (digit 2 w.toNat).val = m1.digit ∧ (digit 3 w.toNat).val = m2.digit ∧
              (digit 4 w.toNat).val = m3.digit ∧
                (w.toNat / (100 * 10 ^ r.arity) ≠ 0 ∧ k = .malformedInstruction w ∨
                  w.toNat / (100 * 10 ^ r.arity) = 0 ∧ (Header.mk r m1 m2 m3).writesImmediate = true ∧
                    k = .badParameterMode 1) := by
  have himm : ∀ {m1 m2 m3 : Mode}, (digit 2 w.toNat).val = m1.digit → (digit 3 w.toNat).val = m2.digit →
      (digit 4 w.toNat).val = m3.digit → ((Header.mk r m1 m2 m3).writesImmediate = true ↔
        ∃ j, r.writeParam = some j ∧ (digit (j + 1) w.toNat).val = 1) := fun d1 d2 d3 =>
    (Header.digitsIn_iff.2 ⟨d1, d2, d3⟩).writesImmediate_iff hr
  simp only [DigitFault, find?_three_eq_some, or_and_right, and_assoc, exists_or, exists_and_left, exists_eq_left,
    or_assoc]
  refine or_congr_right (or_congr_right (or_congr_right ?_))
  constructor
  · rintro ⟨h1, h2, h3, h⟩
    obtain ⟨m1, d1⟩ := exists_mode_of_digit.2 h1
    obtain ⟨m2, d2⟩ := exists_mode_of_digit.2 h2
    obtain ⟨m3, d3⟩ := exists_mode_of_digit.2 h3
    exact ⟨m1, d1, m2, d2, m3, d3, by rwa [himm d1 d2 d3, and_comm (a := ∃ j, _)]⟩
  · rintro ⟨m1, d1, m2, d2, m3, d3, h⟩
    rw [himm d1 d2 d3, and_comm (a := ∃ j, _)] at h
    exact ⟨exists_mode_of_digit.1 ⟨m1, d1⟩, exists_mode_of_digit.1 ⟨m2, d2⟩, exists_mode_of_digit.1 ⟨m3, d3⟩, h⟩

/-- The errors of the decoder in the terms of the word's digits alone. -/
theorem decodeWord_eq_error_iff_fault {w : Atom} {k : ErrorKind} :
    decodeWord w = .error k ↔
      k = .unknownOpcode w ∧ (w.toInt < 0 ∨ w.toNat % 100 ∉ [1, 2, 3, 4, 5, 6, 7, 8, 9, 99]) ∨
        0 ≤ w.toInt ∧ ∃ r ∈ opcodeMap, r.digits = w.toNat % 100 ∧ DigitFault w r k := by
  rw [decodeWord_eq_error]
  simp only [rowOfDigits?_eq_none, rowOfDigits?_eq_some]
  constructor
  · rintro (⟨hneg, rfl⟩ | ⟨-, hrow, rfl⟩ | ⟨h0, r, ⟨hr, hd⟩, hf⟩)
    · exact .inl ⟨rfl, .inl hneg⟩
    · exact .inl ⟨rfl, .inr hrow⟩
    · exact .inr ⟨h0, r, hr, hd, (digitFault_iff hr).2 hf⟩
  · rintro (⟨rfl, hcause⟩ | ⟨h0, r, hr, hd, hf⟩)
    · rcases lt_or_ge w.toInt 0 with hneg | h0
      · exact .inl ⟨hneg, rfl⟩
      · exact .inr (.inl ⟨h0, hcause.resolve_left (not_lt.2 h0), rfl⟩)
    · exact .inr (.inr ⟨h0, r, ⟨hr, hd⟩, (digitFault_iff hr).1 hf⟩)

theorem not_digitFault_unknownOpcode {w w' : Atom} {r : OpcodeRow} : ¬DigitFault w r (.unknownOpcode w') := by
  rintro (⟨_, -, ⟨⟩⟩ | ⟨-, -, -, ⟨-, ⟨⟩⟩ | ⟨-, ⟨⟩, -⟩⟩)

theorem digitFault_badParameterMode {w : Atom} {r : OpcodeRow} {g : Fin 10} :
    DigitFault w r (.badParameterMode g) ↔
      [digit 2 w.toNat, digit 3 w.toNat, digit 4 w.toNat].find? (fun d => decide (2 < d.val)) = some g ∨
        (digit 2 w.toNat).val ≤ 2 ∧ (digit 3 w.toNat).val ≤ 2 ∧ (digit 4 w.toNat).val ≤ 2 ∧
          w.toNat / (100 * 10 ^ r.arity) = 0 ∧ g = 1 ∧
            ∃ j, r.writeParam = some j ∧ (digit (j + 1) w.toNat).val = 1 := by
  simp only [DigitFault, ErrorKind.badParameterMode.injEq, exists_eq_right', reduceCtorEq, and_false, false_or]

theorem digitFault_malformedInstruction {w w' : Atom} {r : OpcodeRow} :
    DigitFault w r (.malformedInstruction w') ↔
      (digit 2 w.toNat).val ≤ 2 ∧ (digit 3 w.toNat).val ≤ 2 ∧ (digit 4 w.toNat).val ≤ 2 ∧
        w.toNat / (100 * 10 ^ r.arity) ≠ 0 ∧ w' = w := by
  simp only [DigitFault, ErrorKind.malformedInstruction.injEq, reduceCtorEq, and_false, false_and, exists_false,
    or_false, false_or]

/-- Settles O9: the errors of each kind, among the faults of the word's digits. -/
theorem decoderErrorsHaveTheirCauses : Obligations.DecoderErrorsHaveTheirCauses := by
  refine fun w => ⟨fun w' => ?unknown, fun g => ?badMode, fun w' => ?malformed⟩
  case unknown =>
    simp only [decodeWord_eq_error_iff_fault, ErrorKind.unknownOpcode.injEq, not_digitFault_unknownOpcode, and_false,
      exists_false, or_false]
  case badMode =>
    simp only [decodeWord_eq_error_iff_fault, digitFault_badParameterMode, reduceCtorEq, false_and, false_or]
  case malformed =>
    simp only [decodeWord_eq_error_iff_fault, digitFault_malformedInstruction, reduceCtorEq, false_and, false_or]
    constructor
    · rintro ⟨h0, r, hr, hd, d1, d2, d3, hx, rfl⟩
      exact ⟨rfl, h0, r, hr, hd, d1, d2, d3, hx⟩
    · rintro ⟨rfl, h0, r, hr, hd, d1, d2, d3, hx⟩
      exact ⟨h0, r, hr, hd, d1, d2, d3, hx, rfl⟩

end Sys2Proof
end

section
/-! The assembler (spec/30_encoding.md R80 to R82; the spec's own decision D18): lines of instructions, labels and comments,
and the pseudo-instructions. -/

namespace Sys2Proof

open Sys2Proof.Machine

/-! ### What lines emit -/

theorem Opcode.arity_eq_row_arity (op : Opcode) : op.arity = op.row.arity := by cases op <;> rfl

/-- An instruction as it is written has as many operands as its opcode takes. -/
theorem Instr.length_map_toAsm (i : Instr) : (i.params.map Param.toAsm).length = i.opcode.arity := by
  rw [List.length_map, i.opcode.arity_eq_row_arity, ← i.header_arity, Instr.header]

/-- A written instruction emits its encoding, whatever the labels. -/
theorem emit_toAsm (table : List (String × Nat)) (i : Instr) : i.toAsm.emit table = some (encode i) := by
  have hparams : (i.params.map Param.toAsm).map (AsmOperand.param? table) = i.params.map some := by
    rw [List.map_map]
    exact List.map_congr_left fun p _ => param?_toAsm table p
  simp only [Instr.toAsm, AsmLine.emit, AsmLine.expand, i.length_map_toAsm, if_true, hparams, allOf_map_some,
    Option.map_some]
  rfl

/-- The atoms that lines emit, one line after another, under a table of labels. -/
def emitAll (table : List (String × Nat)) (lines : List AsmLine) : Option (List Atom) :=
  (allOf (lines.map (AsmLine.emit table))).map List.flatten

theorem assemble_eq_emitAll (lines : List AsmLine) : assemble lines = emitAll (labelTable 0 lines) lines := rfl

theorem emitAll_toAsm (table : List (String × Nat)) (is : List Instr) :
    emitAll table (is.map Instr.toAsm) = some (is.flatMap encode) := by
  have hlines : (is.map Instr.toAsm).map (AsmLine.emit table) = (is.map encode).map some := by
    rw [List.map_map, List.map_map]
    exact List.map_congr_left fun i _ => emit_toAsm table i
  rw [emitAll, hlines, allOf_map_some, Option.map_some, List.flatMap_def]

theorem emitAll_append (table : List (String × Nat)) (xs ys : List AsmLine) :
    emitAll table (xs ++ ys) = (emitAll table xs).bind fun as => (emitAll table ys).map (as ++ ·) := by
  rw [emitAll, List.map_append, allOf_append, emitAll, emitAll]
  cases allOf (xs.map (AsmLine.emit table)) with
  | none => rfl
  | some vs =>
    cases allOf (ys.map (AsmLine.emit table)) with
    | none => rfl
    | some ws => simp

/-- A label and a comment emit nothing. -/
theorem emitAll_label_comment (table : List (String × Nat)) (name text : String) :
    emitAll table [.label name, .comment text] = some [] := rfl

/-! ### The values of labels -/

/-- Instructions define no label and move the address on by their length. -/
theorem labelTable_toAsm_append (a : Nat) (is : List Instr) (lines : List AsmLine) :
    labelTable a (is.map Instr.toAsm ++ lines) = labelTable (a + (is.flatMap encode).length) lines := by
  induction is generalizing a with
  | nil => rfl
  | cons i is ih =>
    have hcons : labelTable a (i.toAsm :: (is.map Instr.toAsm ++ lines)) =
        labelTable (a + i.toAsm.size) (is.map Instr.toAsm ++ lines) := rfl
    rw [List.map_cons, List.cons_append, hcons, ih, size_toAsm, List.flatMap_cons, List.length_append, Nat.add_assoc]

theorem lookup_labelTable_label (a : Nat) (name : String) (lines : List AsmLine) :
    (labelTable a (.label name :: lines)).lookup name = some a := List.lookup_cons_self

/-- Settles O13: instructions emit their encodings whatever the table, and the lines before a label move its value on. -/
theorem assembledInstructionsAreTheirEncodings : Obligations.AssembledInstructionsAreTheirEncodings := by
  refine ⟨fun is => ?instructions, fun is js name text => ⟨?atoms, ?value⟩⟩
  case instructions => rw [assemble_eq_emitAll, emitAll_toAsm]
  case atoms =>
    have hsplit : is.map Instr.toAsm ++ .label name :: .comment text :: js.map Instr.toAsm =
        is.map Instr.toAsm ++ ([.label name, .comment text] ++ js.map Instr.toAsm) := rfl
    rw [assemble_eq_emitAll, hsplit]
    simp only [emitAll_append, emitAll_toAsm, emitAll_label_comment, Option.bind_some, Option.map_some, List.nil_append]
  case value => rw [labelTable_toAsm_append, lookup_labelTable_label, Nat.zero_add]

/-! ### Pseudo-instructions -/

/-- `nop` is a JumpIfFalse that is not taken: it advances over its own words (R82, R151). -/
theorem stageOf_nop {s : State} (h : InAtom (s.ip.toInt + 3)) :
    stageOf .nop s =
      .ok (.advance (s.setMem (s.mem.growTo (lengthJump s ⟨.immediate, 1⟩ ⟨.immediate, 0⟩)))
        (BitVec.ofInt 64 (s.ip.toInt + 3))) :=
  jumpStage_eq_ok.2 ⟨.inl rfl, .inl rfl, 1, _, rfl, toInt_ofInt_of_inAtom h, rfl⟩

/-- Settles O12: the words are computed, and `nop` commits a copy that has only grown. -/
theorem pseudoInstructionsAreCoreWords : Obligations.PseudoInstructionsAreCoreWords := by
  refine fun n d v s => ⟨rfl, rfl, rfl, fun h => ⟨_, exec_eq_settle _ s, ?_⟩⟩
  rw [stageOf_nop h, State.settle_advance]
  exact ⟨sameCells_setMem_growTo s _, ⟨toInt_ofInt_of_inAtom h, rfl, rfl, rfl⟩, rfl, rfl, rfl⟩

end Sys2Proof
end

section
/-! The execution cycle (spec/40_execution_cycle.md R92 to R105): what a step fetches and which error it latches, what it
leaves alone when it does not commit, where `ip` is after it, and that of the status it sees only whether it is terminal. -/

namespace Sys2Proof.Machine

/-! ### Relative addresses (R100) -/

theorem checked_of_not_inAtom (w : Atom) {v : Int} (h : ¬InAtom v) : checked w v = .error (.arithmeticOverflow w) :=
  checked_eq_error.2 (if_neg h)

/-- Settles O17: both resolvers range-check the sum before anything else. -/
theorem relativeAddressOutOfRangeOverflows : Obligations.RelativeAddressOutOfRangeOverflows := fun w _ _ h =>
  ⟨bind_of_error (checked_of_not_inAtom w h), checked_of_not_inAtom w h⟩

/-! ### Fetch, and the totality of the step -/

/-- Settles O18: the fetch answers the instruction that the cells at `ip` decode to. -/
theorem stepRunsTheDecodedInstruction : Obligations.StepRunsTheDecodedInstruction := fun _ _ _ hlive h0 hlast hdec =>
  step_of_fetchInstr_ok hlive (fetchInstr_of_decode_window h0 hlast hdec)

/-- Settles O19: a fetch raises exactly the first failure of its checks (`fetchInstr_raises`). -/
theorem fetchAndDecodeErrorsLatchInOrder : Obligations.FetchAndDecodeErrorsLatchInOrder := by
  refine fun s hlive => ⟨fun k hk => ?_, fun hnone => ?_⟩
  · exact step_of_fetchInstr_error hlive ((fetchInstr_raises s k).2 hk)
  · cases hfetch : fetchInstr s with
    | error k =>
      have hk := (fetchInstr_raises s k).1 hfetch
      rw [hnone] at hk
      cases hk
    | ok i => exact ⟨i, step_of_fetchInstr_ok hlive hfetch, rfl⟩

/-- Settles O21: every arm of `exec` settles what its stage answers. -/
theorem everyStepAnswersNext : Obligations.EveryStepAnswersNext :=
  ⟨fun s => ⟨_, step_eq_stateAfterStep s⟩, fun i s => ⟨_, exec_eq_settle i s⟩⟩

/-! ### A step that does not commit (R98, R99) -/

theorem step_unready {s t : State} (h : step s = .next t) (hr : t.status ≠ .ready) :
    t = { s with status := t.status } := by
  rcases step_latch_or_exec h with e | ⟨i, -, hexec⟩
  · exact e
  · exact exec_unready hexec hr

/-- Settles O22: an uncommitted working copy is discarded (D9). -/
theorem uncommittedStepChangesOnlyStatus : Obligations.UncommittedStepChangesOnlyStatus :=
  ⟨fun _ _ => step_unready, fun _ _ _ => exec_unready⟩

/-! ### The instruction pointer (R101) -/

/-- Where the table of R101 puts `ip`, as an exact integer, after an instruction commits. -/
def nextIp (s : State) : Instr → Int
  | .jumpIfTrue a t => if operandValue s a ≠ 0 then operandValue s t else s.ip.toInt + 3
  | .jumpIfFalse a t => if operandValue s a = 0 then operandValue s t else s.ip.toInt + 3
  | i => s.ip.toInt + i.length

theorem stageOf_ip {i : Instr} {s copy : State} {n : Atom} (h : stageOf i s = .ok (.advance copy n)) :
    n.toInt = nextIp s i := by
  cases i with
  | add | mul | lessThan | equals =>
    obtain ⟨-, -, -, _, _, _, -, -, -, -, hn, e⟩ := binaryStage_eq_ok.1 h
    cases e
    exact hn
  | input =>
    obtain ⟨-, _, -, ⟨-, e⟩ | ⟨_, _, _, -, -, -, hn, e⟩⟩ := inputStage_eq_ok.1 h <;> cases e
    exact hn
  | output =>
    obtain ⟨-, _, _, -, hn, e⟩ := outputStage_eq_ok.1 h
    cases e
    exact hn
  | adjustRelativeBase =>
    obtain ⟨-, _, _, -, hn, e⟩ := adjustStage_eq_ok.1 h
    cases e
    exact hn
  | jumpIfTrue =>
    obtain ⟨-, -, x, _, hx, hn, e⟩ := jumpStage_eq_ok.1 h
    cases e
    simpa only [nextIp, jumpsOnTrue_iff, hx] using hn
  | jumpIfFalse =>
    obtain ⟨-, -, x, _, hx, hn, e⟩ := jumpStage_eq_ok.1 h
    cases e
    simpa only [nextIp, jumpsOnFalse_iff, hx] using hn
  | halt => cases h

theorem exec_ip_of_ready {i : Instr} {s t : State} (h : exec i s = .next t) (hr : t.status = .ready) :
    t.ip.toInt = nextIp s i := by
  obtain rfl := exec_next h
  obtain ⟨copy, n, hstage, hcommit⟩ := settle_ready hr
  rw [hcommit, State.commit_ip, stageOf_ip hstage]

theorem step_ip_of_unready {s t : State} (h : step s = .next t) (hr : t.status ≠ .ready) : t.ip = s.ip := by
  rw [step_unready h hr]

/-- Settles O23: `nextIp` of each instruction when it commits, and the frame of a step when it does not. -/
theorem instructionPointerAdvancesAsTabled : Obligations.InstructionPointerAdvancesAsTabled := by
  refine fun s t a b c => ⟨fun i hi h hr => ?four, fun i hi h hr => ?two, exec_ip_of_ready, exec_ip_of_ready,
    fun h => ?halt, fun i h hr => ?exec, step_ip_of_unready⟩
  case four | two =>
    have hip := exec_ip_of_ready h hr
    fin_cases hi <;> exact hip
  case halt =>
    obtain rfl := exec_next h
    exact ⟨rfl, rfl⟩
  case exec => rw [exec_unready h hr]

/-! ### The status latch (R92, R103) -/

theorem step_of_terminal {s : State} (h : s.status.terminal = true) : step s = .next s := by
  simp only [step, h, if_true]

theorem eq_of_step_of_terminal {s t : State} (hterm : s.status.terminal = true) (h : step s = .next t) : s = t :=
  Host.Outcome.next.inj ((step_of_terminal hterm).symm.trans h)

/-- The state with another status. -/
def State.withStatus (st : Status) (s : State) : State := { s with status := st }

theorem blind_withStatus (st : Status) : Blind (State.withStatus st) :=
  ⟨fun _ => rfl, fun _ => rfl, fun _ => rfl, fun _ => rfl, fun _ _ => rfl⟩

/-- Every ending of a step writes the latch anew. -/
theorem State.settle_withStatus (st : Status) (s : State) (r : Except ErrorKind Ending) :
    (s.withStatus st).settle (r.map (Ending.mapCopy (State.withStatus st))) = s.settle r := by
  rcases r with k | ⟨copy, n⟩ | _ | _
  · rfl
  · rfl
  · rfl
  · rfl

theorem exec_withStatus (st : Status) (i : Instr) (s : State) : exec i (s.withStatus st) = exec i s := by
  have hstage := (blind_withStatus st).stageOf (popInput?_comm (fun _ => rfl) fun _ _ => rfl) (fun _ _ => rfl)
    (fun _ _ => rfl) i s
  rw [exec_eq_settle, exec_eq_settle, hstage, State.settle_withStatus]

/-- A step sees no difference between two statuses that are not terminal. -/
theorem step_withStatus {s : State} {st : Status} (hs : s.status.terminal = false) (hst : st.terminal = false) :
    step (s.withStatus st) = step s := by
  have hfetch : fetchInstr (s.withStatus st) = fetchInstr s := fetchInstr_congr rfl rfl rfl
  cases h : fetchInstr s with
  | error k =>
    rw [step_of_fetchInstr_error (s := s.withStatus st) hst (hfetch.trans h), step_of_fetchInstr_error hs h]
    rfl
  | ok i =>
    rw [step_of_fetchInstr_ok (s := s.withStatus st) hst (hfetch.trans h), step_of_fetchInstr_ok hs h, exec_withStatus]

/-- Settles O60: neither BlockedOnInput nor Ready is terminal. -/
theorem blockedStepRunsAsReadyStep : Obligations.BlockedStepRunsAsReadyStep := fun s h =>
  (step_withStatus (s := s) (st := .ready) (by rw [h]; rfl) rfl).symm

/-- Settles O49: a step from a stopped core is no step, and a step that newly stops the core changed the latch alone, so
from the Ready version of the state it leaves, which is that of the state it began in, the same step is taken. -/
theorem stepKeepsTheLatchHonest : Obligations.StepKeepsTheLatchHonest := by
  intro s t hs h hne
  cases hterm : s.status.terminal with
  | true =>
    obtain rfl := eq_of_step_of_terminal hterm h
    exact hs hne
  | false =>
    have hbefore : t.withStatus .ready = s.withStatus .ready := by rw [step_unready h hne]; rfl
    calc step (t.withStatus .ready) = step (s.withStatus .ready) := by rw [hbefore]
      _ = step s := step_withStatus hterm rfl
      _ = .next t := h

end Sys2Proof.Machine
end

section
/-! The host's side of the cycle (spec/40_execution_cycle.md R91, R103, R106, R110, R112): the result of a step, the steps
of a run, and what every host action keeps. -/

namespace Sys2Proof.Machine

/-! ### A step as the host calls it -/

theorem stateAfterStep_of_step {s t : State} (h : step s = .next t) : stateAfterStep s = t := by
  rw [stateAfterStep, h]

theorem hostStep_of_step {s t : State} (h : step s = .next t) : hostStep s = (observe s t, t) := by
  rw [hostStep, stateAfterStep_of_step h]

section Observe

variable {s t : State}

theorem observe_of_halted (h : t.status = .halted) : observe s t = .halted t.ip := by
  simp only [observe, h]

theorem observe_of_blocked (h : t.status = .blockedOnInput) : observe s t = .blockedOnInput t.ip := by
  simp only [observe, h]

theorem observe_of_error {k : ErrorKind} (h : t.status = .error k) : observe s t = .error k := by
  simp only [observe, h]

theorem observe_of_not_suspending (h : t.status = .ready) (hcfg : s.cfg.outputSuspends = false) :
    observe s t = .ready := by
  simp only [observe, h, hcfg]

theorem observe_of_outq_eq (h : t.status = .ready) (hq : t.outq = s.outq) : observe s t = .ready := by
  cases hcfg : s.cfg.outputSuspends with
  | false => exact observe_of_not_suspending h hcfg
  | true => simp only [observe, h, hcfg, hq, List.drop_length]

theorem observe_of_output {v : Atom} (h : t.status = .ready) (hcfg : s.cfg.outputSuspends = true)
    (hq : t.outq = s.outq ++ [v]) : observe s t = .output v := by
  simp only [observe, h, hcfg, hq, List.drop_left]

end Observe

/-- Settles O20: a step from a stopped core is no step, and the latch is observed again. -/
theorem terminalStatusIgnoresSteps : Obligations.TerminalStatusIgnoresSteps := by
  have same : ∀ {s r}, s.status.terminal = true → observe s s = r → step s = .next s ∧ hostStep s = (r, s) :=
    fun hterm hr => ⟨step_of_terminal hterm, by rw [hostStep_of_step (step_of_terminal hterm), hr]⟩
  exact fun s => ⟨fun h => same (by rw [h]; rfl) (observe_of_halted h),
    fun k h => same (by rw [h]; rfl) (observe_of_error h)⟩

theorem step_outq_of_not_output {s t : State} (h : step s = .next t) (hne : ∀ a, fetchInstr s ≠ .ok (.output a)) :
    t.outq = s.outq := by
  rcases step_latch_or_exec h with e | ⟨i, hi, hexec⟩
  · rw [e]
  · exact exec_outq hexec fun a ha => hne a (ha ▸ hi)

/-- A step that leaves the core Ready ran the instruction it fetched. -/
theorem exec_of_step_ready {s t : State} {i : Instr} (h : step s = .next t) (hr : t.status = .ready)
    (hi : fetchInstr s = .ok i) : exec i s = .next t := by
  cases hterm : s.status.terminal with
  | true =>
    obtain rfl := eq_of_step_of_terminal hterm h
    exact absurd hr (State.status_ne_ready_of_terminal hterm)
  | false => rw [← step_of_fetchInstr_ok hterm hi, h]

/-- Settles O58: each status is observed as its result, and only an Output lengthens `outq`. -/
theorem stepResultReportsTheStep : Obligations.StepResultReportsTheStep := by
  intro s t h
  have hip := step_ip_of_unready h
  rw [hostStep_of_step h]
  refine ⟨rfl, fun hst => ?halted, fun hst => ?blocked, fun k hst => observe_of_error hst,
    fun hst hcfg => observe_of_not_suspending hst hcfg,
    fun hst hne => observe_of_outq_eq hst (step_outq_of_not_output h hne), fun a hst hcfg hi => ?output⟩
  case halted => rw [observe_of_halted hst, hip (by rw [hst]; nofun)]
  case blocked => rw [observe_of_blocked hst, hip (by rw [hst]; nofun)]
  case output =>
    have hq := exec_output_outq (exec_of_step_ready h hst hi) hst
    exact ⟨_, hq, observe_of_output hst hcfg hq⟩

/-! ### A run (R106, D26) -/

/-- Step `k` from `s` (counted from 0) is the first whose result is not Ready: its result is `r`, and `t` the state after
it. -/
def StopsAt (k : Nat) (s : State) (r : StepResult) (t : State) : Prop :=
  (∀ j, j < k → (hostStep (stateAfterSteps j s)).1 = .ready) ∧
    (hostStep (stateAfterSteps k s)).1 = r ∧ r ≠ .ready ∧ t = stateAfterSteps (k + 1) s

theorem stopsAt_zero {s t : State} {r : StepResult} :
    StopsAt 0 s r t ↔ observe s (stateAfterStep s) = r ∧ r ≠ .ready ∧ t = stateAfterStep s :=
  ⟨fun ⟨_, h⟩ => h, fun h => ⟨nofun, h⟩⟩

theorem stopsAt_succ {k : Nat} {s t : State} {r : StepResult} :
    StopsAt (k + 1) s r t ↔ observe s (stateAfterStep s) = .ready ∧ StopsAt k (stateAfterStep s) r t := by
  rw [StopsAt, Nat.forall_lt_succ_left, and_assoc]
  rfl

theorem run_eq_some_iff {n : Nat} {s t : State} {r : StepResult} :
    run n s = (some r, t) ↔ ∃ k, k < n ∧ StopsAt k s r t := by
  induction n generalizing s with
  | zero => simp [run]
  | succ n ih =>
    rw [run_succ, Nat.exists_lt_succ_left, stopsAt_zero]
    simp only [stopsAt_succ]
    by_cases hready : observe s (stateAfterStep s) = .ready
    · simp only [hready, if_true, ih, true_and]
      constructor
      · exact .inr
      · rintro (⟨rfl, hne, -⟩ | h)
        · exact absurd rfl hne
        · exact h
    · simp only [hready, if_false, false_and, and_false, exists_false, or_false, Prod.mk.injEq, Option.some.injEq]
      constructor
      · rintro ⟨rfl, rfl⟩
        exact ⟨rfl, hready, rfl⟩
      · rintro ⟨rfl, -, rfl⟩
        exact ⟨rfl, rfl⟩

theorem run_eq_none_iff {n : Nat} {s t : State} :
    run n s = (none, t) ↔ (∀ j, j < n → (hostStep (stateAfterSteps j s)).1 = .ready) ∧ t = stateAfterSteps n s := by
  induction n generalizing s with
  | zero => simp [run, stateAfterSteps, eq_comm]
  | succ n ih =>
    rw [run_succ, Nat.forall_lt_succ_left, and_assoc]
    show _ ↔ observe s (stateAfterStep s) = .ready ∧ _
    split
    · next hready => rw [ih, and_iff_right hready]; rfl
    · next hready => simp [hready]

/-- Settles O59, by induction on the fuel: the first step either stops the run or is followed by the rest of it. -/
theorem runStopsAtTheFirstResultNotReady : Obligations.RunStopsAtTheFirstResultNotReady := fun _ _ _ =>
  ⟨fun _ => run_eq_some_iff, run_eq_none_iff⟩

/-! ### What the host cannot do (R112) -/

/-- A run is steps of the core one after another, at most as many as its fuel. -/
theorem exists_run_eq_stateAfterSteps (n : Nat) (s : State) : ∃ k, k ≤ n ∧ (run n s).2 = stateAfterSteps k s := by
  rcases hrun : run n s with ⟨_ | r, t⟩
  · obtain ⟨-, ht⟩ := run_eq_none_iff.1 hrun
    exact ⟨n, le_rfl, ht⟩
  · obtain ⟨k, hk, -, -, -, ht⟩ := run_eq_some_iff.1 hrun
    exact ⟨k + 1, hk, ht⟩

theorem stateAfterStep_of_terminal {s : State} (h : s.status.terminal = true) : stateAfterStep s = s :=
  stateAfterStep_of_step (step_of_terminal h)

theorem run_of_terminal (n : Nat) {s : State} (h : s.status.terminal = true) : (run n s).2 = s :=
  run_induction (P := fun t => t = s) (fun _ ht => by rw [ht, stateAfterStep_of_terminal h]) n rfl

/-- Settles O56: the other actions write the queues alone, and a run is steps of the core. -/
theorem hostCannotReachTheProgramState : Obligations.HostCannotReachTheProgramState := by
  refine ⟨fun v s act hact => ?_, fun n s => ⟨fun t => stateAfterStep_of_step, exists_run_eq_stateAfterSteps n s⟩,
    fun n s h => ⟨stateAfterStep_of_terminal h, run_of_terminal n h⟩⟩
  fin_cases hact
  · exact ⟨rfl, rfl, rfl, rfl, rfl, [v], rfl⟩
  · exact ⟨rfl, rfl, rfl, rfl, rfl, [], s.inq.append_nil⟩
  · exact ⟨rfl, rfl, rfl, rfl, rfl, [], s.inq.append_nil⟩
  · exact ⟨rfl, rfl, rfl, rfl, rfl, [], s.inq.append_nil⟩

/-! ### What every host action keeps (R110) -/

/-- The steps of a host action keep what every step keeps; what is left to show is the rest of its effect. -/
theorem perform_keeps {P : State → Prop} (hstep : ∀ s, P s → P (stateAfterStep s))
    (hinput : ∀ v s, P s → P (s.pushInput v)) (htake : ∀ s, P s → P (takeOutput s).2) {act : HostAction} {s : State}
    (hreset : ∀ p, act = .reset p → P (fromProgram s.cfg p)) (hs : P s) : P (act.perform s).2 := by
  cases act with
  | reset p => exact hreset p rfl
  | addInput v => exact hinput v s hs
  | step => exact hstep s hs
  | run fuel => exact run_induction hstep fuel hs
  | output => exact hs
  | takeOutput => exact htake s hs
  | memory => exact hs

theorem len_programImage (p : List Atom) : (programImage p).len = p.length := by
  rw [programImage, Memory.len_storeList]
  split
  · next h => rw [h]; rfl
  · simp

theorem fromProgram_inv {cfg : Config} {p : List Atom} (h : programFits cfg p) : (fromProgram cfg p).Inv := by
  have hlen : (fromProgram cfg p).mem.len = p.length := len_programImage p
  obtain ⟨haddr, hlim⟩ := h
  exact ⟨Memory.wf_storeList Memory.wf_empty 0 p, hlen ▸ haddr, fun l hl => hlen ▸ hlim l hl⟩

/-- Settles O48: a run is steps, only a reset replaces the tape, and the rest leaves it. -/
theorem hostActionsPreserveTheTapeInvariant : Obligations.HostActionsPreserveTheTapeInvariant := by
  refine ⟨fun s act hs hfits => ?_, fun _ _ => fromProgram_inv⟩
  refine perform_keeps (fun t ht => ht.step (step_eq_stateAfterStep t)) (fun _ _ ⟨hwf, hlen, hlim⟩ => ⟨hwf, hlen, hlim⟩)
    (fun _ ⟨hwf, hlen, hlim⟩ => ⟨hwf, hlen, hlim⟩) ?_ hs
  rintro p rfl
  exact fromProgram_inv hfits

/-- A change that fetch cannot see and that keeps the status leaves a stopped core where it stands. -/
theorem State.StandsWhereItStopped.congr {s t : State} (hs : s.StandsWhereItStopped)
    (hfetch : fetchInstr t = fetchInstr s) (hstatus : t.status = s.status) : t.StandsWhereItStopped := by
  rwa [State.StandsWhereItStopped, hfetch, hstatus]

theorem eq_block_of_settle_blocked {s : State} {r : Except ErrorKind Ending} (h : (s.settle r).status = .blockedOnInput) :
    r = .ok .block := by
  rcases r with k | ⟨copy, n⟩ | _ | _
  · cases h
  · cases h
  · cases h
  · rfl

theorem eq_halt_of_settle_halted {s : State} {r : Except ErrorKind Ending} (h : (s.settle r).status = .halted) :
    r = .ok .halt := by
  rcases r with k | ⟨copy, n⟩ | _ | _
  · cases h
  · cases h
  · rfl
  · cases h

/-- The state an uncommitted ending leaves fetches the same instruction again. -/
theorem fetchInstr_settle {s : State} {r : Except ErrorKind Ending} (h : (s.settle r).status ≠ .ready) :
    fetchInstr (s.settle r) = fetchInstr s := by
  rw [settle_unready h]
  exact fetchInstr_congr rfl rfl rfl

/-- Only an Input blocks and only a Halt halts, and a core that stops keeps its `ip` and its tape. -/
theorem State.StandsWhereItStopped.step {s t : State} (hs : s.StandsWhereItStopped) (h : step s = .next t) :
    t.StandsWhereItStopped := by
  rcases step_form h with ⟨-, rfl⟩ | ⟨-, k, -, rfl⟩ | ⟨-, i, hi, rfl⟩
  · exact hs
  · exact ⟨nofun, nofun⟩
  · refine ⟨fun hst => ?blocked, fun hst => ?halted⟩
    case blocked =>
      obtain ⟨c, rfl⟩ := stageOf_eq_block (eq_block_of_settle_blocked hst)
      exact ⟨c, by rw [fetchInstr_settle (by rw [hst]; nofun), hi]⟩
    case halted =>
      obtain rfl := stageOf_eq_halt (eq_halt_of_settle_halted hst)
      rw [fetchInstr_settle (by rw [hst]; nofun), hi]

/-- Settles O50: a run is steps, a reset leaves the core Ready, and fetch sees none of what the rest writes. -/
theorem stoppedCoreStandsAtItsInstruction : Obligations.StoppedCoreStandsAtItsInstruction := fun _ _ hs =>
  perform_keeps (fun t ht => ht.step (step_eq_stateAfterStep t))
    (fun _ _ ht => ht.congr (fetchInstr_congr rfl rfl rfl) rfl)
    (fun _ ht => ht.congr (fetchInstr_congr rfl rfl rfl) rfl) (fun _ _ => State.standsWhereItStopped_of_ready rfl) hs

end Sys2Proof.Machine
end

section
/-! Add, Multiply, LessThan and Equals (spec/41_arithmetic.md R120 to R122; spec/44_compare.md R160, R161): each runs
`binaryStage` with its own operation, so where they complete, with what, and which error they latch is said once for all
four. -/

namespace Sys2Proof.Machine

variable {mk : Param → Param → Param → Instr} {f : Int → Int → Int}

/-- An instruction whose execute stage is `binaryStage` with the operation `f`. -/
def RunsBinaryStage (mk : Param → Param → Param → Instr) (f : Int → Int → Int) : Prop :=
  ∀ a b c s, stageOf (mk a b c) s = binaryStage f (encodeWord (mk a b c)) a b c s

theorem runsBinaryStage_add : RunsBinaryStage .add (fun x y => x + y) := fun _ _ _ _ => rfl

theorem runsBinaryStage_mul : RunsBinaryStage .mul (fun x y => x * y) := fun _ _ _ _ => rfl

theorem runsBinaryStage_lessThan : RunsBinaryStage .lessThan (fun x y => if x < y then 1 else 0) := fun _ _ _ _ => rfl

theorem runsBinaryStage_equals : RunsBinaryStage .equals (fun x y => if x = y then 1 else 0) := fun _ _ _ _ => rfl

/-! ### Completion -/

/-- The tape grows over the accesses made and takes the result at the destination; the destination, the result and the
next `ip` are the atoms of the exact integers. -/
theorem exists_binaryStage_eq_advance (w : Atom) {a b c : Param} {s : State} (ha : Readable s a) (hb : Readable s b)
    (hc : Writable s c) (hresult : InAtom (f (operandValue s a) (operandValue s b))) (hroom : InAtom (s.ip.toInt + 4)) :
    ∃ r n : Atom, r.toInt = f (operandValue s a) (operandValue s b) ∧ n.toInt = s.ip.toInt + 4 ∧
      binaryStage f w a b c s = .ok (.advance
        (s.setMem ((s.mem.growTo (lengthBinary s a b)).store (effectiveAddress s c).toNat r)) n) := by
  obtain ⟨hmode, h0, htop, hlim⟩ := hc
  have hd : (BitVec.ofInt 64 (effectiveAddress s c)).toInt = effectiveAddress s c :=
    toInt_ofInt_of_inAtom ⟨by omega, htop⟩
  have hnat : (BitVec.ofInt 64 (effectiveAddress s c)).toNat = (effectiveAddress s c).toNat := by
    rw [← toInt_toNat_of_nonneg (by rwa [hd]), hd]
  have hr := toInt_ofInt_of_inAtom hresult
  have hn := toInt_ofInt_of_inAtom hroom
  exact ⟨_, _, hr, hn,
    binaryStage_eq_ok.2 ⟨ha, hb, hmode, _, _, _, hd, hr, by rwa [hd], by rwa [hnat], hn, by rw [hnat]⟩⟩

/-- The length of the tape in the order the accesses ask for it: fetch, operands, destination. -/
theorem len_store_growTo_lengthBinary (s : State) (a b : Param) (d : Nat) (v : Atom) :
    ((s.mem.growTo (lengthBinary s a b)).store d v).len =
      max (max (max s.mem.len (s.ip.toInt + 4).toNat) (max (lengthRead s a) (lengthRead s b))) (d + 1) := by
  simp only [Memory.len_store, Memory.len_growTo, lengthBinary, max_assoc]

/-- Such an instruction completes where `binaryStage` answers, and stores what it stores. -/
theorem RunsBinaryStage.result (h : RunsBinaryStage mk f) : ThreeOperandResult mk f := by
  intro a b c s ha hb hc hresult hroom
  obtain ⟨r, n, hr, hn, hstage⟩ := exists_binaryStage_eq_advance (encodeWord (mk a b c)) ha hb hc hresult hroom
  rw [exec_eq_settle, h, hstage, State.settle_advance]
  refine ⟨_, rfl, ?_, len_store_growTo_lengthBinary s a b _ r, ⟨hn, rfl, rfl, rfl⟩, rfl, rfl, rfl⟩
  rw [← hr]
  exact storesOneCell_of_store rfl

/-- Settles O29: Add runs `binaryStage` with the exact sum. -/
theorem addStoresTheExactSum : Obligations.AddStoresTheExactSum := runsBinaryStage_add.result

/-- Settles O30: Multiply runs `binaryStage` with the exact product. -/
theorem multiplyStoresTheExactProduct : Obligations.MultiplyStoresTheExactProduct := runsBinaryStage_mul.result

/-! ### Errors -/

theorem exec_of_stageOf_error {i : Instr} {s : State} {k : ErrorKind} (h : stageOf i s = .error k) :
    exec i s = .next { s with status := .error k } := by
  rw [exec_eq_settle, h, State.settle_error, State.raise]

/-- Such an instruction latches what `binaryStage` raises (R98, R102). -/
theorem RunsBinaryStage.errors (h : RunsBinaryStage mk f) : ThreeOperandErrors mk f := by
  intro a b c s k hmode hfail
  refine exec_of_stageOf_error ((h a b c s).trans ((binaryStage_raises f _ a b s hmode k).2 ?_))
  simpa only [List.append_assoc, List.append_nil] using hfail

/-- Settles O40: `binaryStage` raises the first failure of its checks (`binaryStage_raises`), whatever its operation. -/
theorem threeOperandErrorsLatchInOrder : Obligations.ThreeOperandErrorsLatchInOrder :=
  ⟨runsBinaryStage_add.errors, runsBinaryStage_mul.errors, runsBinaryStage_lessThan.errors,
    runsBinaryStage_equals.errors⟩

end Sys2Proof.Machine
end

section
/-! The queues over any sequence of host actions (spec/42_io.md R135): a step, a run and a sequence of actions each account
for every value that leaves `inq` and every value that enters `outq`. -/

namespace Sys2Proof.Machine

/-! ### What one step consumes and produces -/

theorem consumedByStep_of_input {s : State} {c : Param} (hi : fetchInstr s = .ok (.input c))
    (hr : (stateAfterStep s).status = .ready) : consumedByStep s = s.inq.take 1 := by
  simp only [consumedByStep, hi, hr]

theorem consumedByStep_of_not_input {s : State}
    (h : ¬∃ c, fetchInstr s = .ok (.input c) ∧ (stateAfterStep s).status = .ready) : consumedByStep s = [] := by
  rw [consumedByStep]
  split
  · next c hi hr => exact absurd ⟨c, hi, hr⟩ h
  · rfl

theorem producedByStep_of_output {s : State} {a : Param} (hi : fetchInstr s = .ok (.output a))
    (hr : (stateAfterStep s).status = .ready) : producedByStep s = [BitVec.ofInt 64 (operandValue s a)] := by
  simp only [producedByStep, hi, hr]

theorem producedByStep_of_not_output {s : State}
    (h : ¬∃ a, fetchInstr s = .ok (.output a) ∧ (stateAfterStep s).status = .ready) : producedByStep s = [] := by
  rw [producedByStep]
  split
  · next a hi hr => exact absurd ⟨a, hi, hr⟩ h
  · rfl

/-- What a step consumes is what it takes off the head of `inq`. -/
theorem consumedByStep_append_inq (s : State) : consumedByStep s ++ (stateAfterStep s).inq = s.inq := by
  have hstep := step_eq_stateAfterStep s
  by_cases hin : ∃ c, fetchInstr s = .ok (.input c) ∧ (stateAfterStep s).status = .ready
  · obtain ⟨c, hi, hr⟩ := hin
    obtain ⟨v, hv⟩ := exec_input_inq (exec_of_step_ready hstep hr hi) hr
    rw [consumedByStep_of_input hi hr, hv]
    rfl
  · rw [consumedByStep_of_not_input hin, List.nil_append]
    rcases step_inq hstep with hsame | ⟨c, v, hi, hr, -⟩
    · exact hsame
    · exact absurd ⟨c, hi, hr⟩ hin

/-- What a step produces is what it appends to the tail of `outq`. -/
theorem outq_stateAfterStep (s : State) : (stateAfterStep s).outq = s.outq ++ producedByStep s := by
  have hstep := step_eq_stateAfterStep s
  by_cases hout : ∃ a, fetchInstr s = .ok (.output a) ∧ (stateAfterStep s).status = .ready
  · obtain ⟨a, hi, hr⟩ := hout
    rw [producedByStep_of_output hi hr, exec_output_outq (exec_of_step_ready hstep hr hi) hr]
  · rw [producedByStep_of_not_output hout, List.append_nil]
    by_cases hr : (stateAfterStep s).status = .ready
    · exact step_outq_of_not_output hstep fun a hi => hout ⟨a, hi, hr⟩
    · rw [step_unready hstep hr]

/-! ### Runs -/

theorem consumedByRun_succ (fuel : Nat) (s : State) :
    consumedByRun (fuel + 1) s =
      consumedByStep s ++ if observe s (stateAfterStep s) = .ready then consumedByRun fuel (stateAfterStep s) else [] := by
  simp only [consumedByRun, hostStep]
  cases observe s (stateAfterStep s) <;> simp

theorem producedByRun_succ (fuel : Nat) (s : State) :
    producedByRun (fuel + 1) s =
      producedByStep s ++ if observe s (stateAfterStep s) = .ready then producedByRun fuel (stateAfterStep s) else [] := by
  simp only [producedByRun, hostStep]
  cases observe s (stateAfterStep s) <;> simp

theorem consumedByRun_append_inq (fuel : Nat) (s : State) : consumedByRun fuel s ++ (run fuel s).2.inq = s.inq := by
  induction fuel generalizing s with
  | zero => rfl
  | succ fuel ih =>
    rw [consumedByRun_succ, run_succ, List.append_assoc]
    split
    · rw [ih, consumedByStep_append_inq]
    · exact consumedByStep_append_inq s

theorem outq_run (fuel : Nat) (s : State) : (run fuel s).2.outq = s.outq ++ producedByRun fuel s := by
  induction fuel generalizing s with
  | zero => exact s.outq.append_nil.symm
  | succ fuel ih =>
    rw [producedByRun_succ, run_succ, ← List.append_assoc, ← outq_stateAfterStep]
    split
    · exact ih _
    · exact (List.append_nil _).symm

/-! ### Sequences of host actions -/

theorem inq_conserved {acts : List HostAction} (hacts : ∀ p, HostAction.reset p ∉ acts) (s : State) :
    s.inq ++ inputsGiven acts = inputsConsumed acts s ++ (performAll acts s).inq := by
  induction acts generalizing s with
  | nil => exact s.inq.append_nil
  | cons act acts ih =>
    replace ih := ih fun p hp => hacts p (.tail _ hp)
    cases act with
    | reset p => exact absurd (.head _) (hacts p)
    | addInput v =>
      rw [inputsGiven, List.append_cons]
      exact ih (s.pushInput v)
    | step =>
      rw [inputsConsumed, List.append_assoc, performAll, ← ih, ← List.append_assoc]
      exact congrArg (· ++ inputsGiven acts) (consumedByStep_append_inq s).symm
    | run fuel =>
      rw [inputsConsumed, List.append_assoc, performAll, ← ih, ← List.append_assoc]
      exact congrArg (· ++ inputsGiven acts) (consumedByRun_append_inq fuel s).symm
    | takeOutput => exact ih (takeOutput s).2
    | output | memory => exact ih s

theorem outq_conserved {acts : List HostAction} (hacts : ∀ p, HostAction.reset p ∉ acts) (s : State) :
    outputsTaken acts s ++ (performAll acts s).outq = s.outq ++ outputsProduced acts s := by
  induction acts generalizing s with
  | nil => exact s.outq.append_nil.symm
  | cons act acts ih =>
    replace ih := ih fun p hp => hacts p (.tail _ hp)
    cases act with
    | reset p => exact absurd (.head _) (hacts p)
    | takeOutput =>
      rw [outputsTaken, List.append_assoc]
      exact congrArg (s.outq ++ ·) (ih _)
    | step =>
      rw [outputsProduced, ← List.append_assoc, ← outq_stateAfterStep]
      exact ih _
    | run fuel =>
      rw [outputsProduced, ← List.append_assoc, ← outq_run]
      exact ih _
    | addInput | output | memory => exact ih _

/-- Settles O55, by induction on the actions: `add_input` and `take_output` move values at the host's end of a queue, and
steps and runs account for the core's end. -/
theorem queuesKeepOrderAcrossHostActions : Obligations.QueuesKeepOrderAcrossHostActions := fun _ s hacts =>
  ⟨inq_conserved hacts s, outq_conserved hacts s⟩

end Sys2Proof.Machine
end

section
/-! Input, Output and AdjustRelativeBase (spec/42_io.md R130, R131; spec/45_relbase_halt.md R170): where Input and Output
complete, where Input blocks, and which error each of the three latches. -/

namespace Sys2Proof.Machine

/-! ### Completion -/

/-- An address the core may access is an atom, with the same natural number. -/
theorem Accessible.exists_atom {s : State} {v : Int} (h : Accessible s v) :
    ∃ d : Atom, d.toInt = v ∧ d.toNat = v.toNat := by
  obtain ⟨h0, htop, -⟩ := h
  have hd := toInt_ofInt_of_inAtom (v := v) ⟨by omega, htop⟩
  exact ⟨_, hd, by rw [← toInt_toNat_of_nonneg (by rwa [hd]), hd]⟩

/-- Settles O33: `inputStage` answers with the head of the queue stored, and a commit keeps what the stage kept. -/
theorem inputStoresTheHeadOfTheQueue : Obligations.InputStoresTheHeadOfTheQueue := by
  intro c v rest s hq ⟨hmode, haccess⟩ hroom
  obtain ⟨d, hd, hnat⟩ := Accessible.exists_atom haccess
  obtain ⟨h0, -, hlim⟩ := haccess
  have hn := toInt_ofInt_of_inAtom hroom
  have hstage : stageOf (.input c) s = _ := inputStage_eq_ok.2
    ⟨hmode, d, hd, .inr ⟨v, rest, _, hq, hd ▸ h0, hnat ▸ hlim, hn, rfl⟩⟩
  rw [exec_eq_settle, hstage, State.settle_advance]
  refine ⟨_, rfl, ?_, ?_, ⟨hn, rfl, rfl, rfl⟩, rfl, rfl, rfl⟩
  · exact storesOneCell_of_store (by rw [State.commit_mem, hnat])
  · rw [State.commit_mem, Memory.len_store, Memory.len_growTo, hnat]

/-- Settles O35: `outputStage` answers with the operand appended, and the tape only grows. -/
theorem outputAppendsItsOperand : Obligations.OutputAppendsItsOperand := by
  intro a s ha hroom
  obtain ⟨x, hx⟩ := exists_operandValue s a
  have hn := toInt_ofInt_of_inAtom hroom
  have hstage : stageOf (.output a) s = _ := outputStage_eq_ok.2 ⟨ha, x, _, hx, hn, rfl⟩
  rw [exec_eq_settle, hstage, State.settle_advance]
  refine ⟨_, x, rfl, by rw [← hx, BitVec.ofInt_toInt], hx, rfl, sameCells_setMem_growTo s _, ?_, ⟨hn, rfl, rfl, rfl⟩,
    rfl, rfl⟩
  rw [State.commit_mem, Memory.len_growTo, max_assoc]

/-! ### Blocking -/

/-- Settles O34: on an empty queue `inputStage` answers a block once the write address is an atom (D8). -/
theorem inputBlocksOnAnEmptyQueue : Obligations.InputBlocksOnAnEmptyQueue := by
  intro c s hq hmode haddr
  have hstage : stageOf (.input c) s = .ok .block := inputStage_eq_ok.2
    ⟨hmode, _, toInt_ofInt_of_inAtom haddr, .inl ⟨hq, rfl⟩⟩
  rw [exec_eq_settle, hstage, State.settle_block, State.suspend]

/-! ### Errors -/

/-- Settles O41: `inputStage` raises the first failure of its checks, which end at the write address if nothing is
queued. -/
theorem inputErrorsLatchInOrder : Obligations.InputErrorsLatchInOrder := by
  intro c s k hmode
  have hraises : _ → stageOf (.input c) s = .error k := (inputStage_raises (encodeWord (.input c)) s hmode k).2
  refine ⟨fun hq hfail => exec_of_stageOf_error (hraises ?queued), fun hq hfail => exec_of_stageOf_error (hraises ?empty)⟩
  case queued => simpa only [if_neg hq, List.append_assoc, List.append_nil] using hfail
  case empty => simpa only [if_pos hq, List.append_nil] using hfail

/-- Settles O43: `outputStage` and `adjustStage` raise the first failure of their checks. -/
theorem outputAndAdjustErrorsLatchInOrder : Obligations.OutputAndAdjustErrorsLatchInOrder := by
  refine fun a s k => ⟨fun hfail => exec_of_stageOf_error ((outputStage_raises _ a s k).2 ?output),
    fun hfail => exec_of_stageOf_error ((adjustStage_raises _ a s k).2 ?adjust)⟩
  case output => simpa only [List.append_nil] using hfail
  case adjust => simpa only [List.append_assoc, List.append_nil] using hfail

end Sys2Proof.Machine
end

section
/-! JumpIfTrue and JumpIfFalse (spec/43_jumps.md R150 to R152): both run `jumpStage`, each with the test its rule names,
so where they complete, with what, and which error they latch is said once for both. -/

namespace Sys2Proof.Machine

variable {mk : Param → Param → Instr} {taken : Int → Prop} {a t : Param} {s : State}

/-- An instruction whose execute stage is `jumpStage` with a test that holds of exactly the predicates in `taken`. -/
def RunsJumpStage (mk : Param → Param → Instr) (taken : Int → Prop) : Prop :=
  ∃ test : Atom → Bool, (∀ x, test x = true ↔ taken x.toInt) ∧
    ∀ a t s, stageOf (mk a t) s = jumpStage test (encodeWord (mk a t)) a t s

theorem runsJumpStage_jumpIfTrue : RunsJumpStage .jumpIfTrue (fun x => x ≠ 0) :=
  ⟨jumpsOnTrue, jumpsOnTrue_iff, fun _ _ _ => rfl⟩

theorem runsJumpStage_jumpIfFalse : RunsJumpStage .jumpIfFalse (fun x => x = 0) :=
  ⟨jumpsOnFalse, jumpsOnFalse_iff, fun _ _ _ => rfl⟩

/-! ### Completion -/

/-- Taken or not, such an instruction commits a copy that has only grown, with the next `ip` its predicate selects. -/
theorem RunsJumpStage.exec_eq_commit (h : RunsJumpStage mk taken) (ha : Readable s a) (ht : Readable s t) {n : Atom}
    (hn : taken (operandValue s a) ∧ n.toInt = operandValue s t ∨
      ¬taken (operandValue s a) ∧ n.toInt = s.ip.toInt + 3) :
    exec (mk a t) s = .next (s.commit (s.setMem (s.mem.growTo (lengthJump s a t))) n) := by
  obtain ⟨test, htest, hstage⟩ := h
  obtain ⟨x, hx⟩ := exists_operandValue s a
  have hip : n.toInt = if test x then operandValue s t else s.ip.toInt + 3 := by
    rw [← hx, ← htest] at hn
    rcases hn with ⟨hjump, hn⟩ | ⟨hstay, hn⟩
    · rw [if_pos hjump, hn]
    · rw [if_neg hstay, hn]
  rw [exec_eq_settle, hstage, jumpStage_eq_ok.2 ⟨ha, ht, x, n, hx, hip, rfl⟩, State.settle_advance]

/-- The length of the tape in the order the accesses ask for it: fetch, operands. -/
theorem len_growTo_lengthJump (s : State) (a t : Param) :
    (s.mem.growTo (lengthJump s a t)).len =
      max (max s.mem.len (s.ip.toInt + 3).toNat) (max (lengthRead s a) (lengthRead s t)) := by
  simp only [Memory.len_growTo, lengthJump, max_assoc]

/-- It completes with `ip` at the exact integer its predicate selects, and changes nothing else but `tick`, the latch
and the tape's length. -/
theorem RunsJumpStage.completes (h : RunsJumpStage mk taken) (ha : Readable s a) (ht : Readable s t) {v : Int}
    (hv : taken (operandValue s a) ∧ v = operandValue s t ∨ ¬taken (operandValue s a) ∧ v = s.ip.toInt + 3)
    (hroom : InAtom v) :
    ∃ u, exec (mk a t) s = .next u ∧ Committed s u v ∧ SameCells s u ∧
      u.mem.len = max (max s.mem.len (s.ip.toInt + 3).toNat) (max (lengthRead s a) (lengthRead s t)) ∧
      u.rb = s.rb ∧ u.inq = s.inq ∧ u.outq = s.outq := by
  obtain ⟨n, rfl⟩ : ∃ n : Atom, n.toInt = v := ⟨_, toInt_ofInt_of_inAtom hroom⟩
  exact ⟨_, h.exec_eq_commit ha ht hv, ⟨rfl, rfl, rfl, rfl⟩, sameCells_setMem_growTo s _, len_growTo_lengthJump s a t,
    rfl, rfl, rfl⟩

theorem inAtom_operandValue (s : State) (p : Param) : InAtom (operandValue s p) := by
  obtain ⟨x, hx⟩ := exists_operandValue s p
  exact hx ▸ inAtom_toInt x

/-- A target is always an atom; only the fall-through needs room. -/
theorem RunsJumpStage.result (h : RunsJumpStage mk taken) : JumpResult mk taken := fun _ t s ha ht =>
  ⟨fun hjump => h.completes ha ht (.inl ⟨hjump, rfl⟩) (inAtom_operandValue s t),
    fun hstay hroom => h.completes ha ht (.inr ⟨hstay, rfl⟩) hroom⟩

/-- Settles O36: JumpIfTrue runs `jumpStage` and jumps on any predicate but 0. -/
theorem jumpIfTrueJumpsOnNonzero : Obligations.JumpIfTrueJumpsOnNonzero := runsJumpStage_jumpIfTrue.result

/-- Settles O37: JumpIfFalse runs `jumpStage` and jumps on 0. -/
theorem jumpIfFalseJumpsOnZero : Obligations.JumpIfFalseJumpsOnZero := runsJumpStage_jumpIfFalse.result

/-! ### Negative targets (D12) -/

theorem step_of_negative_ip (hs : s.status.terminal = false) (hip : s.ip.toInt < 0) :
    step s = .next { s with status := .error (.outOfBoundsAddress s.ip .read) } :=
  step_of_fetchInstr_error hs (fetchInstr_of_negative_ip hip)

/-- A taken jump commits whatever its target; the sign of the target is first checked by the next fetch. -/
theorem JumpResult.fails_at_next_fetch (h : JumpResult mk taken) (ha : Readable s a) (ht : Readable s t)
    (hneg : operandValue s t < 0) (hjump : taken (operandValue s a)) :
    ∃ u, exec (mk a t) s = .next u ∧ u.status = .ready ∧ u.ip.toInt = operandValue s t ∧ u.tick = s.tick + 1 ∧
      step u = .next { u with status := .error (.outOfBoundsAddress u.ip .read) } := by
  obtain ⟨hcompletes, -⟩ := h a t s ha ht
  obtain ⟨u, hexec, ⟨hip, htick, hready, -⟩, -⟩ := hcompletes hjump
  exact ⟨u, hexec, hready, hip, htick, step_of_negative_ip (by rw [hready]; rfl) (hip ▸ hneg)⟩

/-- Settles O45: both jumps complete on a negative target, and the next fetch finds it. -/
theorem negativeJumpTargetFailsAtTheNextFetch : Obligations.NegativeJumpTargetFailsAtTheNextFetch :=
  fun _ _ _ ha ht hneg =>
    ⟨runsJumpStage_jumpIfTrue.result.fails_at_next_fetch ha ht hneg,
      runsJumpStage_jumpIfFalse.result.fails_at_next_fetch ha ht hneg⟩

/-! ### Errors -/

/-- Such an instruction latches what `jumpStage` raises (R98, R102): the advance is checked only if the jump is not
taken, and the target never. -/
theorem RunsJumpStage.errors (h : RunsJumpStage mk taken) [Decidable (taken (operandValue s a))] {k : ErrorKind}
    (hfail : firstFailure (readChecks (encodeWord (mk a t)) s a ++ readChecks (encodeWord (mk a t)) s t ++
      (if taken (operandValue s a) then [] else [rangeFailure (encodeWord (mk a t)) (s.ip.toInt + 3)])) = some k) :
    exec (mk a t) s = .next { s with status := .error k } := by
  obtain ⟨test, htest, hstage⟩ := h
  obtain ⟨x, hx⟩ := exists_operandValue s a
  have htaken : test x = true ↔ taken (operandValue s a) := by rw [htest, hx]
  refine exec_of_stageOf_error ((hstage a t s).trans ((jumpStage_raises test _ a t s hx k).2 ?_))
  simpa only [htaken, List.append_assoc] using hfail

/-- Settles O42: `jumpStage` raises the first failure of its checks (`jumpStage_raises`), whatever its test. -/
theorem jumpErrorsLatchInOrder : Obligations.JumpErrorsLatchInOrder := fun _ _ _ _ =>
  ⟨runsJumpStage_jumpIfTrue.errors, runsJumpStage_jumpIfFalse.errors⟩

end Sys2Proof.Machine
end

section
/-! LessThan and Equals complete (spec/44_compare.md R160, R161). Both run `binaryStage`, each with its own truth value
(`runsBinaryStage_lessThan`, `runsBinaryStage_equals`), so the result shared by the three-operand instructions is theirs. -/

namespace Sys2Proof.Machine

/-- Settles O31: LessThan runs `binaryStage` with the truth of the comparison of its operands as exact integers. -/
theorem lessThanStoresItsTruth : Obligations.LessThanStoresItsTruth := runsBinaryStage_lessThan.result

/-- Settles O32: Equals runs `binaryStage` with the truth of the equality of its operands. -/
theorem equalsStoresItsTruth : Obligations.EqualsStoresItsTruth := runsBinaryStage_equals.result

end Sys2Proof.Machine
end

section
/-! AdjustRelativeBase completes, and Halt stops the core for good (spec/45_relbase_halt.md R170 to R172). -/

namespace Sys2Proof.Machine

/-! ### AdjustRelativeBase -/

/-- Settles O38: `adjustStage` answers with the sum in `rb`, and the tape only grows. -/
theorem adjustRelativeBaseAddsItsOperand : Obligations.AdjustRelativeBaseAddsItsOperand := by
  intro a s ha hsum hroom
  have hr := toInt_ofInt_of_inAtom hsum
  have hn := toInt_ofInt_of_inAtom hroom
  have hstage : stageOf (.adjustRelativeBase a) s = _ := adjustStage_eq_ok.2 ⟨ha, _, _, hr, hn, rfl⟩
  rw [exec_eq_settle, hstage, State.settle_advance]
  refine ⟨_, rfl, hr, sameCells_setMem_growTo s _, ?_, ⟨hn, rfl, rfl, rfl⟩, rfl, rfl⟩
  rw [State.commit_mem, Memory.len_growTo, max_assoc]

/-! ### Halt -/

theorem exec_halt (s : State) : exec .halt s = .next { s with status := .halted } := by
  rw [exec_eq_settle, stageOf, State.settle_halt, State.stopHalted]

/-- A stopped core stays as it is for any number of steps (R92). -/
theorem stateAfterSteps_of_terminal {s : State} (h : s.status.terminal = true) : ∀ n, stateAfterSteps n s = s
  | 0 => rfl
  | n + 1 => by rw [stateAfterSteps, stateAfterStep_of_terminal h, stateAfterSteps_of_terminal h n]

/-- Settles O39: Halt stops the core (`exec_halt`), and a halted core is a stopped one. -/
theorem haltLatchesHaltedForGood : Obligations.HaltLatchesHaltedForGood := fun s =>
  ⟨exec_halt s, stateAfterSteps_of_terminal rfl⟩

end Sys2Proof.Machine
end

section
/-! The causes of a newly latched status (spec/60_exceptions.md R181 to R187). An error is the first failure of the
checks of R102, so the checks of each kind are shown to name the cause of their failure, once, and the errors of a fetch
and of every execute stage follow. -/

namespace Sys2Proof.Machine

/-! ### What the checks of R102 say of their first failure -/

/-- What an error says of the state `s` it is raised in, where `w` is the instruction word (R181 to R186). -/
def NamesCause (s : State) (w : Atom) : ErrorKind → Prop
  | .outOfBoundsAddress a _ => a.toInt < 0
  | .badParameterMode g => 2 < g.val ∨ g.val = 1
  | .unknownOpcode w' => w' = w
  | .malformedInstruction w' => w' = w
  | .arithmeticOverflow w' => w' = w
  | .memoryLimitExceeded a => ∃ l, s.cfg.memLimit = some l ∧ l ≤ a.toNat

/-- The first failure of the checks, if one of them fails, names its cause. -/
def FirstNamesCause (s : State) (w : Atom) (checks : List (Option ErrorKind)) : Prop :=
  ∀ k, firstFailure checks = some k → NamesCause s w k

theorem firstFailure_singleton (check : Option ErrorKind) : firstFailure [check] = check := by
  rw [firstFailure_cons, firstFailure_nil, Option.or_none]

theorem limitAdmits_eq_false {cfg : Config} {a : Nat} :
    limitAdmits cfg a = false ↔ ∃ l, cfg.memLimit = some l ∧ l ≤ a := by
  unfold limitAdmits
  cases cfg.memLimit <;> simp

section Checks

variable {s : State} {w : Atom}

theorem FirstNamesCause.nil : FirstNamesCause s w [] := nofun

/-- The checks in `ds` come to be made only if none of those in `cs` fails. -/
theorem FirstNamesCause.append {cs ds : List (Option ErrorKind)} (hcs : FirstNamesCause s w cs)
    (hds : firstFailure cs = none → FirstNamesCause s w ds) : FirstNamesCause s w (cs ++ ds) := by
  intro k hk
  rw [firstFailure_append, Option.or_eq_some_iff] at hk
  obtain hk | ⟨hnone, hk⟩ := hk
  · exact hcs k hk
  · exact hds hnone k hk

theorem FirstNamesCause.flatMap {α : Type} {f : α → List (Option ErrorKind)} (hf : ∀ x, FirstNamesCause s w (f x)) :
    ∀ xs : List α, FirstNamesCause s w (xs.flatMap f)
  | [] => .nil
  | x :: xs => (hf x).append fun _ => .flatMap hf xs

theorem FirstNamesCause.singleton {check : Option ErrorKind} (h : ∀ k, check = some k → NamesCause s w k) :
    FirstNamesCause s w [check] := by
  rwa [FirstNamesCause, firstFailure_singleton]

theorem firstNamesCause_range (v : Int) : FirstNamesCause s w [rangeFailure w v] := .singleton fun k hk => by
  unfold rangeFailure at hk
  split at hk <;> cases hk
  rfl

theorem inAtom_of_range {v : Int} (h : firstFailure [rangeFailure w v] = none) : InAtom v := by
  by_contra hv
  rw [firstFailure_singleton, rangeFailure, if_neg hv] at h
  cases h

/-- The address an access error carries is the exact one only if that is an atom. -/
theorem firstNamesCause_access {v : Int} (hv : InAtom v) (kind : AccessKind) :
    FirstNamesCause s w [accessFailure s v kind] := by
  obtain ⟨a, rfl⟩ : ∃ a : Atom, a.toInt = v := ⟨_, toInt_ofInt_of_inAtom hv⟩
  refine .singleton fun k hk => ?_
  rcases lt_or_ge a.toInt 0 with hneg | h0
  · rw [accessFailure_of_negative kind hneg] at hk
    cases hk
    exact hneg
  · cases hlim : limitAdmits s.cfg a.toNat with
    | true =>
      rw [accessFailure_of_admitted kind h0 hlim] at hk
      cases hk
    | false =>
      obtain ⟨l, hcfg, hl⟩ := limitAdmits_eq_false.1 hlim
      rw [accessFailure_of_limit kind h0 hcfg hl] at hk
      cases hk
      exact ⟨l, hcfg, hl⟩

theorem firstNamesCause_range_access (v : Int) (kind : AccessKind) :
    FirstNamesCause s w [rangeFailure w v, accessFailure s v kind] :=
  (firstNamesCause_range v).append fun hrange => firstNamesCause_access (inAtom_of_range hrange) kind

theorem firstNamesCause_readChecks (p : Param) : FirstNamesCause s w (readChecks w s p) := by
  unfold readChecks
  split
  · exact .nil
  · exact firstNamesCause_range_access _ .read

theorem firstNamesCause_writeChecks {p : Param} (haddr : firstFailure (writeAddrChecks w s p) = none) :
    FirstNamesCause s w (writeChecks s p) := firstNamesCause_access (inAtom_of_range haddr) .write

theorem firstNamesCause_decodeFailure : FirstNamesCause s w [decodeFailure w] := .singleton fun k hk => by
  have hdec : decodeWord w = .error k := (decodeWord_raises w k).2 (by rwa [firstFailure_singleton])
  rcases decodeWord_eq_error.1 hdec with ⟨-, rfl⟩ | ⟨-, -, rfl⟩ | ⟨-, _, -, hdigits⟩
  · rfl
  · rfl
  · rcases hdigits with ⟨hg, rfl⟩ | ⟨-, hg, rfl⟩ | ⟨-, -, hg, rfl⟩ | ⟨_, _, _, -, -, -, ⟨-, rfl⟩ | ⟨-, -, rfl⟩⟩
    · exact .inl hg
    · exact .inl hg
    · exact .inl hg
    · rfl
    · exact .inr rfl

end Checks

/-! ### The errors of a fetch and of an execute stage -/

theorem fetchInstr_error_namesCause {s : State} {k : ErrorKind} (h : fetchInstr s = .error k) :
    NamesCause s (s.mem.get s.ip.toNat) k := by
  suffices hchecks : FirstNamesCause s (s.mem.get s.ip.toNat) (fetchChecks s) from
    hchecks k ((fetchInstr_raises s k).1 h)
  refine (firstNamesCause_access (inAtom_toInt s.ip) .read).append fun _ =>
    firstNamesCause_decodeFailure.append fun _ => ?_
  cases decodeWord (s.mem.get s.ip.toNat) with
  | error => exact .nil
  | ok h => exact .flatMap (fun _ => firstNamesCause_range_access _ .read) _

theorem mode_ne_immediate_of_writable {p : Param} (h : p.writable = true) : p.mode ≠ .immediate := bne_iff_ne.1 h

theorem stageOf_error_namesCause {i : Instr} {s : State} {k : ErrorKind} (hi : i.wellFormed = true)
    (h : stageOf i s = .error k) : NamesCause s (encodeWord i) k := by
  cases i with
  | add | mul | lessThan | equals =>
    refine FirstNamesCause.append (firstNamesCause_readChecks _) (fun _ => ?_) k
      ((binaryStage_raises _ _ _ _ s (mode_ne_immediate_of_writable hi) k).1 h)
    exact (firstNamesCause_readChecks _).append fun _ => (firstNamesCause_range _).append fun haddr =>
      (firstNamesCause_range _).append fun _ => (firstNamesCause_writeChecks haddr).append fun _ =>
        firstNamesCause_range _
  | input =>
    refine FirstNamesCause.append (firstNamesCause_range _) (fun haddr => ?_) k
      ((inputStage_raises _ s (mode_ne_immediate_of_writable hi) k).1 h)
    split
    · exact .nil
    · exact (firstNamesCause_writeChecks haddr).append fun _ => firstNamesCause_range _
  | output =>
    exact (firstNamesCause_readChecks _).append (fun _ => firstNamesCause_range _) k ((outputStage_raises _ _ s k).1 h)
  | adjustRelativeBase =>
    refine FirstNamesCause.append (firstNamesCause_readChecks _) (fun _ => ?_) k ((adjustStage_raises _ _ s k).1 h)
    exact (firstNamesCause_range _).append fun _ => firstNamesCause_range _
  | jumpIfTrue a | jumpIfFalse a =>
    obtain ⟨x, hx⟩ := exists_operandValue s a
    refine FirstNamesCause.append (firstNamesCause_readChecks _) (fun _ => ?_) k ((jumpStage_raises _ _ _ _ s hx k).1 h)
    refine (firstNamesCause_readChecks _).append fun _ => ?_
    split
    · exact .nil
    · exact firstNamesCause_range _
  | halt => cases h

/-! ### The status a step latches -/

theorem eq_error_of_settle_error {s : State} {r : Except ErrorKind Ending} {k : ErrorKind}
    (h : (s.settle r).status = .error k) : r = .error k := by
  rcases r with k' | ⟨copy, n⟩ | _ | _ <;> cases h
  rfl

theorem step_error_namesCause {s t : State} {k : ErrorKind} (hs : s.status.terminal = false) (h : step s = .next t)
    (hk : t.status = .error k) : NamesCause s (s.mem.get s.ip.toNat) k := by
  rcases step_form h with ⟨hterm, -⟩ | ⟨-, k', hfetch, rfl⟩ | ⟨-, i, hi, rfl⟩
  · cases hs.symm.trans hterm
  · cases hk
    exact fetchInstr_error_namesCause hfetch
  · obtain ⟨hwf, hword⟩ := word_of_fetchInstr hi
    exact hword ▸ stageOf_error_namesCause hwf (eq_error_of_settle_error hk)

theorem step_blocked_cause {s t : State} (hs : s.status.terminal = false) (h : step s = .next t)
    (hst : t.status = .blockedOnInput) : s.inq = [] ∧ ∃ c, fetchInstr s = .ok (.input c) := by
  rcases step_form h with ⟨hterm, -⟩ | ⟨-, k, -, rfl⟩ | ⟨-, i, hi, rfl⟩
  · cases hs.symm.trans hterm
  · cases hst
  · have hblock := eq_block_of_settle_blocked hst
    obtain ⟨c, rfl⟩ := stageOf_eq_block hblock
    obtain ⟨-, _, -, ⟨hq, -⟩ | ⟨_, _, _, -, -, -, -, e⟩⟩ := inputStage_eq_ok.1 hblock
    · exact ⟨hq, c, hi⟩
    · cases e

theorem step_halted_cause {s t : State} (hs : s.status.terminal = false) (h : step s = .next t)
    (hst : t.status = .halted) : fetchInstr s = .ok .halt := by
  rcases step_form h with ⟨hterm, -⟩ | ⟨-, k, -, rfl⟩ | ⟨-, i, hi, rfl⟩
  · cases hs.symm.trans hterm
  · cases hst
  · rwa [stageOf_eq_halt (eq_halt_of_settle_halted hst)] at hi

/-- Settles O44: a latched error of any kind names its cause (`step_error_namesCause`), only an Input with nothing queued
blocks, and only a Halt halts. -/
theorem latchedErrorNamesItsCause : Obligations.LatchedErrorNamesItsCause := by
  intro s t hs h
  have hcause {k} (hk : t.status = .error k) : NamesCause s (s.mem.get s.ip.toNat) k := step_error_namesCause hs h hk
  exact ⟨fun _ _ => hcause, fun _ => hcause, fun _ => hcause, fun _ => hcause, fun _ => hcause, fun _ => hcause,
    step_blocked_cause hs h, step_halted_cause hs h⟩

end Sys2Proof.Machine
end

section
/-! Reset (spec/70_reset_and_hazards.md R210, R211): the state that `reset(P)` leaves is the one `from_program(P)` builds. -/

namespace Sys2Proof.Machine

/-- The image is stored cell by cell on the empty tape, so its zeros are not listed. -/
theorem wf_programImage (p : List Atom) : (programImage p).wf := Memory.wf_storeList Memory.wf_empty 0 p

/-- Settles O4: `resetTo` builds `fromProgram` under the parameters of the state before, and of its fields only the tape is
computed. -/
theorem resetForgetsTheStateBefore : Obligations.ResetForgetsTheStateBefore := by
  intro p s
  have hlen : (resetTo p s).mem.len = p.length := len_programImage p
  have hwf : (resetTo p s).mem.wf := wf_programImage p
  exact ⟨rfl, hlen, rfl, rfl, rfl, rfl, rfl, rfl, hwf⟩

end Sys2Proof.Machine
end
